-- ==== Sys2Proof/Word.lean ====
section
/-! DEFINITION. The words and the small name sets of IRDEC: the 40-bit transaction word, the operand
widths of spec/00_scope.md section 4, and the enumerations of spec/30_encoding.md R82, R88. -/

namespace Sys2Proof

/-- TW[39:0], one transaction (R80, TW_W = 40). -/
abbrev TWord := BitVec 40

/-- A MARK or SPACE duration, unsigned µs (DUR_W = 32). -/
abbrev Dur := BitVec 32

/-- A combined duration, formed at 33 bits (R132). -/
abbrev CombinedDur := BitVec 33

/-- A 32-bit ms time, modulo 2^32 (TIME_W = 32, R10). -/
abbrev Time := BitVec 32

/-- A wire-level command byte (R51). -/
abbrev Code := BitVec 8

/-- A command code or a sentinel (R88). -/
abbrev Code9 := BitVec 9

/-- An index into the catalogue ROM (R51 to R53). -/
abbrev ButtonId := BitVec 8

/-- The host's opaque handler identifier (HANDLER_W = 8). -/
abbrev HandlerId := BitVec 8

/-- The receiver source selector (SRC_W = 8, R24). -/
abbrev SrcId := BitVec 8

/-- RESP[31:0] (R90). -/
abbrev Resp := BitVec 32

/-- The protocol variants (R3, R23). -/
inductive Protocol where
  | standard
  | addressLenient
deriving DecidableEq, Repr

/-- The event kinds, which are also the actions of a subscription (R34, R91). -/
inductive EventKind where
  | pressed
  | released
deriving DecidableEq, Repr

/-- The classifier's output (R88). -/
inductive Symbol where
  | bit0
  | bit1
  | repeatSym
  | frameStart
  | incomplete
deriving DecidableEq, Repr

/-- The Resolver's output (R88, R125): nothing, a completed command, or the repeat sentinel. -/
inductive Resolved where
  | nothing
  | cmd (c : Code)
  | repeatSentinel
deriving DecidableEq, Repr

/-- What a legal button identifier names: the wildcard or one wire code (R51 to R53). -/
inductive ButtonRef where
  | any
  | wire (c : Code)
deriving DecidableEq, Repr

/-- The two external ports (R61). -/
inductive Port where
  | edge
  | host
deriving DecidableEq, Repr

/-- The three sources of transactions (R61). -/
inductive Source where
  | edge
  | host
  | scheduler
deriving DecidableEq, Repr

/-- The rows of the opcode map (R82, R83). -/
inductive Op where
  | mark
  | space
  | tick
  | attach
  | subscribe
  | currentButton
  | wasPressed
  | buttonCode
  | readStatus
deriving DecidableEq, Repr

/-- Why a word selects no instruction on its source: the causes 1, 3 and 2 of R202. Which one applied
is not recorded by the machine (R204). -/
inductive Reject where
  | reservedOpcode
  | reservedBit
  | wrongPort
deriving DecidableEq, Repr

end Sys2Proof
end

