-- ==== Sys2Proof/Config.lean ====
section
/-! DEFINITION. The parameters a model of IRDEC takes as arguments (spec/00_scope.md R7), and the one
free value: the order of transactions of different sources that carry the same time. -/

namespace Sys2Proof

/-- The model's parameters (R7). They are set when the block is built, and no step writes them. Their
values in this hardware are `Config.hardware` (Machine/Params.lean). -/
structure Config where
  /-- SUB_SLOTS, the number of subscription slots, allowed 1..255 (D21). -/
  subSlots : Nat
  /-- SAME_CODE_REFRESH (R142, D15). -/
  sameCodeRefresh : Bool
  /-- CATALOGUE_EXTRA, a partial function as a list of (identifier, code) (R52, D25). -/
  catalogueExtra : List (ButtonId × Code)
  /-- T_BIT1 in µs. -/
  tBit1 : Nat
  /-- T_REPEAT in µs. -/
  tRepeat : Nat
  /-- T_START in µs. -/
  tStart : Nat
  /-- T_NOISE in µs. -/
  tNoise : Nat
  /-- REPEAT_WINDOW_MS. HELD_TICK_MS and IDLE_TICK_MS follow it (R7). -/
  repeatWindowMs : Time
deriving DecidableEq, Repr

/-- FREE VALUE (R62, R209; log entry 2): which of several transactions of the same time the serialiser
takes, for the n-th tie that the state's own list of choices does not settle. It has no body, so no
proof can see a value of it. -/
opaque Config.freePick : Nat → Nat

end Sys2Proof
end

