-- ==== Sys2Proof/Machine/Params.lean ====
section
/-! DEFINITION. The parameter table of spec/00_scope.md section 4: this hardware's values, the fixed
window limits, the tick intervals that follow the repeat window, and the code9 sentinels (R88). -/

namespace Sys2Proof

/-- This hardware's parameter values (spec/00_scope.md section 4). -/
def Config.hardware : Config where
  subSlots := 16
  sameCodeRefresh := true
  catalogueExtra := []
  tBit1 := 1600
  tRepeat := 2700
  tStart := 12500
  tNoise := 14500
  repeatWindowMs := 120

/-- HELD_TICK_MS = REPEAT_WINDOW_MS. -/
def Config.heldTickMs (cfg : Config) : Time := cfg.repeatWindowMs

/-- IDLE_TICK_MS = 2 × REPEAT_WINDOW_MS. -/
def Config.idleTickMs (cfg : Config) : Time := 2 * cfg.repeatWindowMs

namespace Machine

/-- ADDR_LAST. The window limits are fixed, not parameters (R7). -/
abbrev addrLast : Nat := 8

/-- INV_ADDR_LAST. -/
abbrev invAddrLast : Nat := 16

/-- CMD_FIRST. -/
abbrev cmdFirst : Nat := 17

/-- CMD_LAST. -/
abbrev cmdLast : Nat := 24

/-- LENIENT_JUMP. -/
abbrev lenientJump : Nat := 9

/-- The code9 sentinel NONE (R88). -/
abbrev noneCode : Code9 := 0x100#9

/-- The code9 wildcard ANY (R53, R88). -/
abbrev anyCode : Code9 := 0x1FF#9

/-- The code9 of a wire code: 0x000 to 0x0FF (R88). -/
def wireCode (c : Code) : Code9 := c.setWidth 9

/-- A code9 value that is ever produced by the decoder: NONE or a wire code (R30, R88). -/
def isNoneOrWire (c : Code9) : Bool := c == noneCode || decide (c.toNat < 256)

/-- The button identifier of the wildcard ANY (R53). -/
abbrev anyId : ButtonId := 0xFF#8

/-- The encoding of a Symbol (R88). -/
def symbolCode : Symbol → BitVec 3
  | .bit0 => 0
  | .bit1 => 1
  | .repeatSym => 2
  | .frameStart => 3
  | .incomplete => 4

/-- The kind number of a Resolver output (R88). -/
def resolvedKind : Resolved → Nat
  | .nothing => 0
  | .cmd _ => 1
  | .repeatSentinel => 2

/-- `after(a, b)`: (a - b) mod 2^32 lies in 1 .. 2^31 - 1 (R10). -/
def after (a b : Time) : Bool :=
  decide (1 ≤ (a - b).toNat) && decide ((a - b).toNat ≤ 2 ^ 31 - 1)

end Machine

end Sys2Proof
end

