-- ==== Sys2Proof/Machine/State.lean ====
section
/-! DEFINITION. The state of IRDEC (spec/10_state.md section 1), the run around it (spec/20_memory.md
R66), the outputs of the latest step (R60, R90, R91), the state after power-on reset
(spec/70_reset_and_hazards.md R230) and the reasons a step can stop. -/

namespace Sys2Proof.Machine

/-- One slot of the subscription table, 19 bits (R34). -/
structure SubEntry where
  valid : Bool
  action : EventKind
  any : Bool
  code : Code
  handler : HandlerId
deriving DecidableEq, Repr

/-- A slot that SUBSCRIBE has not written: every field 0 (R34). -/
def SubEntry.empty : SubEntry :=
  { valid := false, action := .pressed, any := false, code := 0, handler := 0 }

/-- One event record (R91). Bit i of the record's `match` field is element i of `matched`, which has one
element for each slot (log entry 14). -/
structure EventRecord where
  kind : EventKind
  code : Code
  matched : List Bool
deriving DecidableEq, Repr

/-- The faults a step can report and go on from (R202). -/
inductive FaultCause where
  /-- IllegalTransaction, the only fault of IRDEC. -/
  | illegalTransaction
deriving DecidableEq, Repr

/-- The cause code (R202). -/
def FaultCause.code : FaultCause → Nat
  | .illegalTransaction => 1

/-- What one step drives out (R60): its event records, EV0 first; RESP for a HOST transaction; and the
fault, if it raised one. Nothing reads it (R205: no event is kept for a later step; log entry 7). -/
structure Output where
  events : List EventRecord
  response : Option Resp
  fault : Option FaultCause
deriving DecidableEq, Repr

/-- A step that emits no event, drives no response and raises no fault. -/
def Output.quiet : Output := { events := [], response := none, fault := none }

/-- EV0 and its valid bit (R91). -/
def Output.ev0 (o : Output) : Option EventRecord := o.events[0]?

/-- EV1 and its valid bit (R91). -/
def Output.ev1 (o : Output) : Option EventRecord := o.events[1]?

/-- One item of a trace (R66). -/
structure TraceItem where
  time : Nat
  port : Port
  word : TWord
deriving DecidableEq, Repr

/-- The whole state: the registers of spec/10_state.md, then the run, then the outputs. -/
structure State where
  /-- R22. -/
  attached : Bool
  /-- R23. -/
  protocol : Protocol
  /-- R24. -/
  srcSel : SrcId
  /-- R25. -/
  markLatch : Dur
  /-- R26. -/
  bitsReceived : BitVec 6
  /-- R27. -/
  commandBits : Code
  /-- R28. -/
  lastCommand : Code9
  /-- R29. -/
  hasUnreadPress : Bool
  /-- R30. -/
  activeCommand : Code9
  /-- R31. -/
  repeatDeadline : Time
  /-- R32. -/
  tickDue : Time
  /-- R33. -/
  subCount : BitVec 8
  /-- R34: one entry for each slot. -/
  subTable : List SubEntry
  /-- R35. -/
  faultIllegal : Bool
  /-- R36. -/
  subOverflow : Bool
  /-- The parameters (R7; log entry 6). No step writes them. -/
  cfg : Config
  /-- The time of the latest step, an unbounded number of ms (R66). -/
  time : Nat
  /-- The transactions still to come on EDGE and HOST (R66; log entry 1). -/
  trace : List TraceItem
  /-- The horizon H of the run (R66). -/
  horizon : Nat
  /-- The MODEL'S own: choices for the coming equal-time ties (R62; log entry 2). -/
  picks : List Nat
  /-- The MODEL'S own: how many ties `Config.freePick` has settled (log entry 2). -/
  ties : Nat
  /-- The outputs of the latest step. -/
  out : Output
deriving DecidableEq, Repr

/-- The reasons the machine stops with a fault: none. IllegalTransaction does not stop IRDEC (R203), and
"IRDEC has no path that wedges" (spec/93_implementation_defined.md). -/
inductive Fault where
deriving DecidableEq

/-- The reasons a step has no next state. -/
inductive Refusal where
  /-- An instruction of the table that has no meaning in the model. No arm of `exec` answers it. -/
  | notModelled (mnemonic : String)
  /-- Raised by `step` when the trace still to come is not well-formed: its times decrease, or run before
  the latest step or past the horizon (R66: "the model refuses it"). Safe (log entry 5). -/
  | traceIllFormed
  /-- Raised by `step` when the run is over: no item is left and no TICK is due up to the horizon (R66,
  R149). There is no transaction, hence no step. Safe (log entry 4). -/
  | noTransaction
deriving DecidableEq, Repr

/-- The state after power-on with given parameters: R230, with nothing of a run present (log entry 9). -/
def State.powerOn (cfg : Config) : State where
  attached := false
  protocol := .standard
  srcSel := 0
  markLatch := 0
  bitsReceived := 0
  commandBits := 0
  lastCommand := 0x100#9
  hasUnreadPress := false
  activeCommand := 0x100#9
  repeatDeadline := 0
  tickDue := 0
  subCount := 0
  subTable := List.replicate cfg.subSlots SubEntry.empty
  faultIllegal := false
  subOverflow := false
  cfg := cfg
  time := 0
  trace := []
  horizon := 0
  picks := []
  ties := 0
  out := Output.quiet

/-- The machine right after reset, with this hardware's parameters (R230). -/
def State.reset : State := State.powerOn Config.hardware

end Sys2Proof.Machine
end

