-- ==== Sys2Proof/Machine/Ops.lean ====
section
/-! DEFINITION. The primitives every rule uses (spec/00_scope.md R9): the step's timestamp, `respond`,
`emit` with event matching (spec/60_exceptions.md R205, R206), the fault (R202, R203), and the order in
which the host runs matching handlers (R207). -/

namespace Sys2Proof.Machine

/-- `now`: the step's time modulo 2^32 (R66). -/
def State.now (s : State) : Time := BitVec.ofNat 32 s.time

/-- SRC_SEL[7:0], the output that `src_sel` drives (R24). -/
def State.srcSelPin (s : State) : SrcId := s.srcSel

/-- Held(c) for some c: `active_command != 0x100` (R140). -/
def State.held (s : State) : Bool := s.activeCommand != noneCode

/-- The start of a step: no output yet. Nothing of an earlier step's output stays (R205). -/
def State.quiet (s : State) : State := { s with out := Output.quiet }

/-- `respond v` (R9, R90). -/
def State.respond (v : Resp) (s : State) : State :=
  { s with out := { s.out with response := some v } }

/-- Slot `e` matches an event of kind `k` and code `c` (R206). -/
def SubEntry.isMatch (k : EventKind) (c : Code) (e : SubEntry) : Bool :=
  e.valid && decide (e.action = k) && (e.any || decide (e.code = c))

/-- The `match` bits of an event, slot 0 first (R91, R206). -/
def matchBits (table : List SubEntry) (k : EventKind) (c : Code) : List Bool :=
  table.map (SubEntry.isMatch k c)

/-- `emit Pressed(c)` or `emit Released(c)`: append one record to the step's event output (R9, R205). -/
def State.emit (k : EventKind) (c : Code) (s : State) : State :=
  { s with out := { s.out with
      events := s.out.events ++ [{ kind := k, code := c, matched := matchBits s.subTable k c }] } }

/-- `raise IllegalTransaction(word)`, the one way a fault is taken: `fault_illegal <- 1`, no event, RESP
= 0 on HOST, nothing else changed (R203). -/
def State.raiseIllegal (src : Source) (s : State) : State :=
  { s with
    faultIllegal := true
    out := {
      events := []
      response := if src = .host then some 0 else none
      fault := some .illegalTransaction } }

/-- The refresh: `repeat_deadline <- now + REPEAT_WINDOW_MS`, modulo 2^32 (R141, R143, R151). -/
def State.refresh (s : State) : State :=
  { s with repeatDeadline := s.now + s.cfg.repeatWindowMs }

/-- The handler ids the host runs for an event: those of the matching slots in ascending slot order,
once for each match (R207). -/
def dispatchOrder (table : List SubEntry) (ev : EventRecord) : List HandlerId :=
  ((table.zip ev.matched).filter (·.2)).map (·.1.handler)

end Sys2Proof.Machine
end

