-- ==== Sys2Proof/Machine/Flags.lean ====
section
/-! DEFINITION. The flags and the status view: `has_unread_press` (spec/10_state.md R29), the sticky
`sub_overflow` (R36), and STATUS (R37, spec/30_encoding.md R90). -/

namespace Sys2Proof.Machine

/-- A one-bit flag as a 32-bit number, `zext_32`. -/
def flagWord (b : Bool) : Resp := (BitVec.ofBool b).setWidth 32

/-- A new press sets the flag (R29, R141). -/
def State.setUnread (s : State) : State := { s with hasUnreadPress := true }

/-- WAS_PRESSED clears the flag (R29, R175). -/
def State.clearUnread (s : State) : State := { s with hasUnreadPress := false }

/-- A SUBSCRIBE to a full table sets the sticky flag (R36, R173). -/
def State.setOverflow (s : State) : State := { s with subOverflow := true }

/-- STATUS, built when READ_STATUS runs (R90, R177). -/
def statusWord (s : State) : Resp :=
  flagWord s.attached
    ||| (flagWord (s.protocol = .addressLenient) <<< 1)
    ||| (flagWord s.held <<< 2)
    ||| (flagWord s.faultIllegal <<< 3)
    ||| (flagWord s.subOverflow <<< 4)
    ||| ((if s.held then (s.activeCommand.extractLsb' 0 8).setWidth 32 else 0) <<< 8)
    ||| (s.subCount.setWidth 32 <<< 16)

end Sys2Proof.Machine
end

