-- ==== Sys2Proof/Machine/Debounce.lean ====
section
/-! DEFINITION. The Debounce & Repeat Engine and the tick (spec/41_debounce_repeat.md): DEBOUNCE_CMD
R141 and R142, DEBOUNCE_REPEAT R143 and R144, TICK R145 to R147. -/

namespace Sys2Proof.Machine

/-- `active_command[7:0]`, the held code. -/
def State.heldCode (s : State) : Code := s.activeCommand.extractLsb' 0 8

/-- `if active_command != 0x100: emit Released(active_command[7:0])` (R141). -/
def releaseHeld (s : State) : State := if s.held then s.emit .released s.heldCode else s

/-- The switch to a code that differs from the held one: release what was held, hold and announce the
new code, set the unread flag, refresh the deadline (R141). -/
def pressNew (c : Code) (s : State) : State :=
  (({ releaseHeld s with activeCommand := wireCode c }.emit .pressed c).setUnread).refresh

/-- DEBOUNCE_CMD(c, now) (R141; the same code again: R142). -/
def debounceCmd (c : Code) (s : State) : State :=
  let s := { s with lastCommand := wireCode c }
  if s.activeCommand ≠ wireCode c then pressNew c s
  else if s.cfg.sameCodeRefresh then s.refresh
  else s

/-- DEBOUNCE_REPEAT(now): a refresh while Held, nothing while Idle (R143, R144). -/
def debounceRepeat (s : State) : State := if s.held then s.refresh else s

/-- The release part of TICK: Held and now after the deadline (R145). -/
def tickRelease (s : State) : State :=
  if s.held ∧ after s.now s.repeatDeadline then
    { s.emit .released s.heldCode with activeCommand := noneCode }
  else s

/-- The tick interval, chosen from the state after the tick's own transition (R147). -/
def tickInterval (s : State) : Time := if s.held then s.cfg.heldTickMs else s.cfg.idleTickMs

/-- `tick_due <- now + interval` (R145, R147). -/
def scheduleTick (s : State) : State := { s with tickDue := s.now + tickInterval s }

/-- TICK (R145, R146, R147). -/
def execTick (s : State) : Host.Outcome State Fault Refusal :=
  .next (scheduleTick (tickRelease s.quiet))

end Sys2Proof.Machine
end

