-- ==== Sys2Proof/Machine/Catalogue.lean ====
section
/-! DEFINITION. The catalogue ROM (spec/20_memory.md R51 to R53) with the parameter CATALOGUE_EXTRA. It
is constant state: no step writes it and reset does not change it (spec/10_state.md R41). -/

namespace Sys2Proof.Machine

/-- The entries the source gives (R51). -/
def romTable : List (ButtonId × Code) :=
  [(0x00#8, 0x11#8), (0x01#8, 0x91#8), (0x02#8, 0x81#8), (0x03#8, 0xA1#8),
   (0x04#8, 0xE9#8), (0x05#8, 0x69#8), (0x06#8, 0x21#8), (0x07#8, 0x01#8),
   (0x40#8, 0xA2#8), (0x41#8, 0x62#8), (0x42#8, 0xE2#8)]

/-- The identifiers CATALOGUE_EXTRA governs: 0x08..0x3F and 0x43..0x7F (R52). -/
def isExtraId (i : ButtonId) : Bool :=
  (decide (0x08 ≤ i.toNat) && decide (i.toNat ≤ 0x3F))
    || (decide (0x43 ≤ i.toNat) && decide (i.toNat ≤ 0x7F))

/-- Identifiers of the main remote: 0x00..0x3F (R52). -/
def isMainId (i : ButtonId) : Bool := decide (i.toNat ≤ 0x3F)

/-- Identifiers of the mini remote: 0x40..0x7F (R52). -/
def isMiniId (i : ButtonId) : Bool := decide (0x40 ≤ i.toNat) && decide (i.toNat ≤ 0x7F)

/-- `CatRead(id)` (R51, R52). The identifiers 0x80..0xFE and 0xFF read as `none` whatever the parameter
holds (R52, R53). -/
def catRead (cfg : Config) (i : ButtonId) : Option Code :=
  match romTable.lookup i with
  | some c => some c
  | none => if isExtraId i then cfg.catalogueExtra.lookup i else none

/-- What a button identifier names: ANY for 0xFF, the catalogue's code for an assigned one, nothing for
an unassigned one (R53, R86). -/
def buttonRef (cfg : Config) (i : ButtonId) : Option ButtonRef :=
  if i = anyId then some .any else (catRead cfg i).map .wire

/-- No mini identifier has a code that some main identifier has (R52). -/
def codesDistinct (cfg : Config) : Bool :=
  let entries := romTable ++ cfg.catalogueExtra
  entries.all fun e => entries.all fun f =>
    !(isMainId e.1 && isMiniId f.1 && decide (e.2 = f.2))

end Sys2Proof.Machine

namespace Sys2Proof

/-- The bounds the spec sets on the parameters: SUB_SLOTS in 1..255 (spec/00_scope.md section 4), the
thresholds strictly rising from above 0 (R7), CATALOGUE_EXTRA a partial function on its two ranges with
codes that keep the two remotes apart (R52). -/
def Config.wf (cfg : Config) : Bool :=
  decide (1 ≤ cfg.subSlots) && decide (cfg.subSlots ≤ 255)
    && decide (0 < cfg.tBit1) && decide (cfg.tBit1 < cfg.tRepeat)
    && decide (cfg.tRepeat < cfg.tStart) && decide (cfg.tStart < cfg.tNoise)
    && cfg.catalogueExtra.all (fun e => Machine.isExtraId e.1)
    && decide (cfg.catalogueExtra.map Prod.fst).Nodup
    && Machine.codesDistinct cfg

end Sys2Proof
end

