-- ==== Sys2Proof/Machine/Operands.lean ====
section
/-! DEFINITION. Operand forms: the 33-bit combined duration of a SPACE (spec/40_edge_decode.md R131,
R132) and the subscription entry that a SUBSCRIBE's operands stand for (spec/42_host_interface.md R172). -/

namespace Sys2Proof.Machine

/-- The combined duration: both durations zero-extended to 33 bits, so the sum never wraps (R132). -/
def combinedDuration (mark space : Dur) : CombinedDur := mark.setWidth 33 + space.setWidth 33

/-- The entry a SUBSCRIBE stores, or none when its identifier is unassigned (R172). -/
def subEntry (cfg : Config) (a : EventKind) (h : HandlerId) (i : ButtonId) : Option SubEntry :=
  match buttonRef cfg i with
  | none => none
  | some .any => some { valid := true, action := a, any := true, code := 0, handler := h }
  | some (.wire c) => some { valid := true, action := a, any := false, code := c, handler := h }

/-- The code9 of what an identifier names (R176). -/
def buttonCode9 : ButtonRef → Code9
  | .any => anyCode
  | .wire c => wireCode c

end Sys2Proof.Machine
end

