-- ==== Sys2Proof/Machine/Edge.lean ====
section
/-! DEFINITION. The EDGE port (spec/40_edge_decode.md): CLASSIFY R100, PUSH_BIT R110, RESOLVE R125, and
the transactions MARK R130 and SPACE R131. -/

namespace Sys2Proof.Machine

/-- CLASSIFY(d): each band has an inclusive lower and an exclusive upper bound (R100). -/
def classify (cfg : Config) (d : CombinedDur) : Symbol :=
  if d.toNat < cfg.tBit1 then .bit0
  else if d.toNat < cfg.tRepeat then .bit1
  else if d.toNat < cfg.tStart then .repeatSym
  else if d.toNat < cfg.tNoise then .frameStart
  else .incomplete

/-- The incremented counter n, saturating at 63 (R110, R117). -/
def nextCount (k : BitVec 6) : BitVec 6 := if k = 63#6 then 63#6 else k + 1

/-- The shift of the command window: the high bit is lost, b enters at bit 0 (R114). -/
def shiftIn (cb : Code) (b : Bool) : Code := cb.extractLsb' 0 7 ++ BitVec.ofBool b

/-- The counter after a bit of the address window: the lenient jump to 9, or n (R111, R112). -/
def addressCount (p : Protocol) (b : Bool) (n : BitVec 6) : BitVec 6 :=
  if p = .addressLenient ∧ b = true then BitVec.ofNat 6 lenientJump else n

/-- PUSH_BIT(b): counter increment first, then dispatch by window (R110 to R117). -/
def pushBit (b : Bool) (s : State) : Option Code × State :=
  let n := nextCount s.bitsReceived
  if n.toNat ≤ addrLast then
    (none, { s with bitsReceived := addressCount s.protocol b n })
  else if n.toNat ≤ invAddrLast then
    (none, { s with bitsReceived := n })
  else if n.toNat < cmdLast then
    (none, { s with commandBits := shiftIn s.commandBits b, bitsReceived := n })
  else if n.toNat = cmdLast then
    (some (shiftIn s.commandBits b),
      { s with commandBits := shiftIn s.commandBits b, bitsReceived := n })
  else
    (none, { s with bitsReceived := n })

/-- The Resolver output of an accumulator result: CMD(c) or NONE (R125). -/
def resolvedOf : Option Code → Resolved
  | some c => .cmd c
  | none => .nothing

/-- `bits_received <- 0`, the resync on a non-bit symbol (R102). -/
def resync (s : State) : State := { s with bitsReceived := 0 }

/-- RESOLVE(d) (R125). -/
def resolve (d : CombinedDur) (s : State) : Resolved × State :=
  match classify s.cfg d with
  | .bit0 => (resolvedOf (pushBit false s).1, (pushBit false s).2)
  | .bit1 => (resolvedOf (pushBit true s).1, (pushBit true s).2)
  | .repeatSym => (.repeatSentinel, resync s)
  | .frameStart => (.nothing, resync s)
  | .incomplete => (.nothing, resync s)

/-- What reaches the engine: a command, or the repeat sentinel; NONE reaches nothing (R126, R131). -/
def deliver : Resolved → State → State
  | .cmd c, s => debounceCmd c s
  | .repeatSentinel, s => debounceRepeat s
  | .nothing, s => s

/-- MARK(dur): latch the duration, once attached (R130, R134). -/
def execMark (dur : Dur) (s : State) : Host.Outcome State Fault Refusal :=
  .next (if s.attached then { s.quiet with markLatch := dur } else s.quiet)

/-- SPACE(dur, now): pair with the latched mark, which stays, and run the pipeline, once attached (R131,
R133, R134). -/
def execSpace (dur : Dur) (s : State) : Host.Outcome State Fault Refusal :=
  if s.attached then
    let r := resolve (combinedDuration s.markLatch dur) s.quiet
    .next (deliver r.1 r.2)
  else .next s.quiet

end Sys2Proof.Machine
end

