-- ==== Sys2Proof/Machine/Surface.lean ====
section
/-! DEFINITION. The HOST port (spec/42_host_interface.md): ATTACH R170 and R171, SUBSCRIBE R172 and
R173, CURRENT_BUTTON R174, WAS_PRESSED R175, BUTTON_CODE R176, READ_STATUS R177. -/

namespace Sys2Proof.Machine

/-- ATTACH(p, s, now): the first call attaches and starts the scheduler at `now`; a later one is a no-op
that answers 0 (R170, R171). -/
def execAttach (p : Protocol) (src : SrcId) (s : State) : Host.Outcome State Fault Refusal :=
  if s.attached then .next (s.quiet.respond 0)
  else
    .next ({ s.quiet with
      attached := true
      protocol := p
      srcSel := src
      tickDue := s.now }.respond 1)

/-- RESP of a stored subscription: bit 0 set, the slot index in bits 15..8 (R90, R172). -/
def storedResponse (slot : BitVec 8) : Resp := (slot.setWidth 32 <<< 8) ||| 1

/-- `SubTable[sub_count] <- e ; sub_count <- sub_count + 1` (R172). -/
def State.store (e : SubEntry) (s : State) : State :=
  { s with subTable := s.subTable.set s.subCount.toNat e, subCount := s.subCount + 1 }

/-- SUBSCRIBE(a, h, i) (R172; a full table: R173). -/
def execSubscribe (a : EventKind) (h : HandlerId) (i : ButtonId) (s : State) :
    Host.Outcome State Fault Refusal :=
  match subEntry s.cfg a h i with
  | none => .next (s.quiet.raiseIllegal .host)
  | some e =>
    if s.subCount.toNat = s.cfg.subSlots then .next (s.quiet.setOverflow.respond 0)
    else .next ((s.quiet.store e).respond (storedResponse s.subCount))

/-- CURRENT_BUTTON: `respond zext_32(last_command)` (R174). -/
def execCurrentButton (s : State) : Host.Outcome State Fault Refusal :=
  .next (s.quiet.respond (s.lastCommand.setWidth 32))

/-- WAS_PRESSED: answer the flag and clear it in the same step (R175). -/
def execWasPressed (s : State) : Host.Outcome State Fault Refusal :=
  .next (s.quiet.clearUnread.respond (flagWord s.hasUnreadPress))

/-- BUTTON_CODE(i): a pure lookup (R176). -/
def execButtonCode (i : ButtonId) (s : State) : Host.Outcome State Fault Refusal :=
  match buttonRef s.cfg i with
  | none => .next (s.quiet.raiseIllegal .host)
  | some r => .next (s.quiet.respond ((buttonCode9 r).setWidth 32))

/-- READ_STATUS: the status view, without side effect (R177). -/
def execReadStatus (s : State) : Host.Outcome State Fault Refusal :=
  .next (s.quiet.respond (statusWord s))

end Sys2Proof.Machine
end

