-- ==== Sys2Proof/Syntax.lean ====
section
/-! DEFINITION. The instruction type: one constructor per row of spec/opcode_table.json, with the
operands of spec/30_encoding.md R84. -/

namespace Sys2Proof

/-- One transaction of IRDEC, its operands taken out of the word (R82, R84). -/
inductive Instr where
  /-- MARK dur (R130). -/
  | mark (dur : Dur)
  /-- SPACE dur (R131). -/
  | space (dur : Dur)
  /-- TICK (R145). -/
  | tick
  /-- ATTACH protocol, source (R170). -/
  | attach (p : Protocol) (src : SrcId)
  /-- SUBSCRIBE action, button, handler (R172), in the order of the word: a, h, i. -/
  | subscribe (a : EventKind) (h : HandlerId) (i : ButtonId)
  /-- CURRENT_BUTTON (R174). -/
  | currentButton
  /-- WAS_PRESSED (R175). -/
  | wasPressed
  /-- BUTTON_CODE button (R176). -/
  | buttonCode (i : ButtonId)
  /-- READ_STATUS (R177). -/
  | readStatus
deriving DecidableEq, Repr

end Sys2Proof
end

