-- ==== Sys2Proof/Machine/Dispatch.lean ====
section
/-! DEFINITION. What each instruction does: one arm per constructor, one call of its meaning. The source
a word came from is checked before, by `perform` (Machine/Step.lean). -/

namespace Sys2Proof.Machine

def exec (i : Instr) (s : State) : Host.Outcome State Fault Refusal :=
  match i with
  | .mark dur => Sys2Proof.Machine.execMark dur s
  | .space dur => Sys2Proof.Machine.execSpace dur s
  | .tick => Sys2Proof.Machine.execTick s
  | .attach p src => Sys2Proof.Machine.execAttach p src s
  | .subscribe a h b => Sys2Proof.Machine.execSubscribe a h b s
  | .currentButton => Sys2Proof.Machine.execCurrentButton s
  | .wasPressed => Sys2Proof.Machine.execWasPressed s
  | .buttonCode b => Sys2Proof.Machine.execButtonCode b s
  | .readStatus => Sys2Proof.Machine.execReadStatus s

end Sys2Proof.Machine
end

