-- ==== Sys2Proof/Decode.lean ====
section
/-! DEFINITION. Decoding and encoding of transaction words (spec/30_encoding.md R80 to R87). The decoder
reads the match and mask table of R83; the encoder is written from the formats of R80, R81 and the
opcode map of R82. -/

namespace Sys2Proof

/-- Every row of the table, in its order (R83). -/
def Op.all : List Op :=
  [.mark, .space, .tick, .attach, .subscribe, .currentButton, .wasPressed, .buttonCode, .readStatus]

/-- The match value of a row (R83). -/
def Op.pattern : Op → TWord
  | .mark => 0x1000000000#40
  | .space => 0x2000000000#40
  | .tick => 0x3000000000#40
  | .attach => 0x4000000000#40
  | .subscribe => 0x5000000000#40
  | .currentButton => 0x6000000000#40
  | .wasPressed => 0x7000000000#40
  | .buttonCode => 0x8000000000#40
  | .readStatus => 0x9000000000#40

/-- The mask of a row (R83). -/
def Op.mask : Op → TWord
  | .mark => 0xFF00000000#40
  | .space => 0xFF00000000#40
  | .tick => 0xFFFFFFFFFF#40
  | .attach => 0xFEFFFFFF00#40
  | .subscribe => 0xFEFFFF0000#40
  | .currentButton => 0xFFFFFFFFFF#40
  | .wasPressed => 0xFFFFFFFFFF#40
  | .buttonCode => 0xFFFFFFFF00#40
  | .readStatus => 0xFFFFFFFFFF#40

/-- A word selects a row when (TW & mask) = match (R83). -/
def Op.selects (op : Op) (w : TWord) : Bool := w &&& op.mask == op.pattern

/-- OP = TW[39:36] (R80). -/
def opField (w : TWord) : BitVec 4 := w.extractLsb' 36 4

/-- SUB = TW[35:32] (R80). -/
def subField (w : TWord) : BitVec 4 := w.extractLsb' 32 4

/-- ARG = TW[31:0] (R80). -/
def argField (w : TWord) : BitVec 32 := w.extractLsb' 0 32

/-- ARG[7:0]: the source, or the button identifier (R84). -/
def argLow (w : TWord) : BitVec 8 := w.extractLsb' 0 8

/-- ARG[15:8]: the handler (R84). -/
def argHandler (w : TWord) : BitVec 8 := w.extractLsb' 8 8

/-- SUB[0], the one option bit of ATTACH and SUBSCRIBE (R80). -/
def optionBit (w : TWord) : Bool := w.getLsbD 32

/-- The protocol a bit stands for: 0 = Standard, 1 = AddressLenient (R84). -/
def protocolOfBit : Bool → Protocol
  | false => .standard
  | true => .addressLenient

/-- The bit of a protocol (R23). -/
def protocolBit : Protocol → Bool
  | .standard => false
  | .addressLenient => true

/-- The action a bit stands for: 0 = Pressed, 1 = Released (R84). -/
def kindOfBit : Bool → EventKind
  | false => .pressed
  | true => .released

/-- The bit of an event kind (R91). -/
def kindBit : EventKind → Bool
  | .pressed => false
  | .released => true

/-- The operands of a row, taken from the word (R84). -/
def Op.build (w : TWord) : Op → Instr
  | .mark => .mark (argField w)
  | .space => .space (argField w)
  | .tick => .tick
  | .attach => .attach (protocolOfBit (optionBit w)) (argLow w)
  | .subscribe => .subscribe (kindOfBit (optionBit w)) (argHandler w) (argLow w)
  | .currentButton => .currentButton
  | .wasPressed => .wasPressed
  | .buttonCode => .buttonCode (argLow w)
  | .readStatus => .readStatus

/-- OP is 0x0 or 0xA to 0xF (R86). -/
def isReservedOpcode (w : TWord) : Bool :=
  opField w == 0#4 || decide (0xA ≤ (opField w).toNat)

/-- Decoding of a word, total: the instruction of the one row that matches, or the reason why none does
(R83, R85, R86). -/
def decode (w : TWord) : Except Reject Instr :=
  match Op.all.find? (·.selects w) with
  | some op => .ok (op.build w)
  | none => .error (if isReservedOpcode w then .reservedOpcode else .reservedBit)

/-- The row of an instruction. -/
def Instr.op : Instr → Op
  | .mark _ => .mark
  | .space _ => .space
  | .tick => .tick
  | .attach _ _ => .attach
  | .subscribe _ _ _ => .subscribe
  | .currentButton => .currentButton
  | .wasPressed => .wasPressed
  | .buttonCode _ => .buttonCode
  | .readStatus => .readStatus

/-- The one source a row is legal on (R82). -/
def Op.source : Op → Source
  | .mark => .edge
  | .space => .edge
  | .tick => .scheduler
  | .attach => .host
  | .subscribe => .host
  | .currentButton => .host
  | .wasPressed => .host
  | .buttonCode => .host
  | .readStatus => .host

/-- Decoding of a word on the source it came from: a legal opcode on another source is illegal (R82,
R87). -/
def decodeFor (src : Source) (w : TWord) : Except Reject Instr :=
  match decode w with
  | .ok i => if i.op.source = src then .ok i else .error .wrongPort
  | .error r => .error r

/-- A word from its three fields (R80). -/
def mkWord (op : BitVec 4) (sub : BitVec 4) (arg : BitVec 32) : TWord := op ++ sub ++ arg

/-- The SUB field that holds one option bit (R81, formats FA and FS). -/
def subOfBit (b : Bool) : BitVec 4 := 0#3 ++ BitVec.ofBool b

/-- The word of an instruction (R81, R82). -/
def encode : Instr → TWord
  | .mark d => mkWord 0x1 0 d
  | .space d => mkWord 0x2 0 d
  | .tick => mkWord 0x3 0 0
  | .attach p s => mkWord 0x4 (subOfBit (protocolBit p)) (0#24 ++ s)
  | .subscribe a h i => mkWord 0x5 (subOfBit (kindBit a)) (0#16 ++ h ++ i)
  | .currentButton => mkWord 0x6 0 0
  | .wasPressed => mkWord 0x7 0 0
  | .buttonCode i => mkWord 0x8 0 (0#24 ++ i)
  | .readStatus => mkWord 0x9 0 0

/-- The instruction the decoder reads from a word numbered as spec/opcode_table.json numbers it: the
whole 40-bit word is one unit, bit 0 its least significant bit (R8, R80). A number that does not fit
40 bits is no transaction word. -/
def decodeTableWord (nbits w : Nat) : Option Instr :=
  if nbits ≤ 40 ∧ w < 2 ^ 40 then
    match decode (BitVec.ofNat 40 w) with
    | .ok i => some i
    | .error _ => none
  else none

end Sys2Proof
end

