-- ==== Sys2Proof/Machine/Serialiser.lean ====
section
/-! DEFINITION. The serialiser and the tick scheduler (spec/20_memory.md R61, R62, R66;
spec/41_debounce_repeat.md R148 to R150): which transaction the next step takes. -/

namespace Sys2Proof.Machine

/-- The trace still to come is well-formed: times never decrease, none is before `t` or after the horizon
(R66). -/
def traceOrdered (horizon : Nat) : Nat → List TraceItem → Bool
  | _, [] => true
  | t, x :: xs =>
    decide (t ≤ x.time) && decide (x.time ≤ horizon) && traceOrdered horizon x.time xs

/-- The trace the state still holds is well-formed (R66). -/
def State.traceOk (s : State) : Bool := traceOrdered s.horizon s.time s.trace

/-- One transaction offered to the serialiser: where it comes from, its time, its word. -/
structure Arrival where
  source : Source
  time : Nat
  word : TWord
deriving DecidableEq, Repr

/-- The source a port is (R61). -/
def portSource : Port → Source
  | .edge => .edge
  | .host => .host

/-- The first item of one port: an item never overtakes an earlier one of its own port (R66). -/
def firstOn (p : Port) : List TraceItem → Option TraceItem
  | [] => none
  | x :: xs => if x.port = p then some x else firstOn p xs

/-- The trace without the first item of one port. -/
def dropFirstOn (p : Port) : List TraceItem → List TraceItem
  | [] => []
  | x :: xs => if x.port = p then xs else x :: dropFirstOn p xs

/-- What one port offers. -/
def portArrival (p : Port) (s : State) : Option Arrival :=
  (firstOn p s.trace).map fun x => { source := portSource p, time := x.time, word := x.word }

/-- The unbounded time of the next TICK: the first time from the latest step on that is `tick_due` modulo
2^32 (R149; log entry 8). -/
def nextTickTime (s : State) : Nat := s.time + (s.tickDue - s.now).toNat

/-- What the tick scheduler offers: nothing before the first ATTACH (R148), nothing past the horizon
(R149). -/
def tickArrival (s : State) : Option Arrival :=
  if s.attached ∧ nextTickTime s ≤ s.horizon then
    some { source := .scheduler, time := nextTickTime s, word := 0x3000000000#40 }
  else none

/-- Everything on offer: EDGE, HOST, scheduler. -/
def arrivals (s : State) : List Arrival :=
  (portArrival .edge s).toList ++ (portArrival .host s).toList ++ (tickArrival s).toList

/-- The earliest of what is on offer: more than one when sources tie (R62). -/
def ready (s : State) : List Arrival :=
  (arrivals s).filter fun a => (arrivals s).all fun b => decide (a.time ≤ b.time)

/-- The choice for one tie: the next of the state's own choices, else the free value (R62; log entry 2). -/
def takePick (s : State) : Nat × State :=
  match s.picks with
  | k :: ks => (k, { s with picks := ks })
  | [] => (Config.freePick s.ties, { s with ties := s.ties + 1 })

/-- The transaction the next step takes, and the state with any choice used up. A choice is made only
where sources tie. -/
def arbitrate (s : State) : Option (Arrival × State) :=
  match ready s with
  | [] => none
  | [a] => some (a, s)
  | a :: b :: rest =>
    let k := (takePick s).1 % (a :: b :: rest).length
    ((a :: b :: rest)[k]?).map fun x => (x, (takePick s).2)

/-- The trace once an arrival is taken. -/
def traceAfter (src : Source) (xs : List TraceItem) : List TraceItem :=
  match src with
  | .edge => dropFirstOn .edge xs
  | .host => dropFirstOn .host xs
  | .scheduler => xs

/-- The state in which the transaction of an arrival runs: its time is the step's time (R66). -/
def accept (a : Arrival) (s : State) : State :=
  { s with time := a.time, trace := traceAfter a.source s.trace }

/-- The port a word belongs on: EDGE for the opcodes MARK and SPACE, else HOST (R82). -/
def wordPort (w : TWord) : Port :=
  if opField w = 0x1#4 ∨ opField w = 0x2#4 then .edge else .host

/-- A word placed alone on its port, arriving now. If a TICK falls due at the same time, the word is
taken first (log entry 1). -/
def placeOnPort (w : TWord) (s : State) : State :=
  { s with
    trace := [{ time := s.time, port := wordPort w, word := w }]
    horizon := max s.horizon s.time
    picks := if s.attached ∧ nextTickTime s = s.time then 0 :: s.picks else s.picks }

/-- The tick scheduler about to issue a TICK: attached, nothing on the ports, `tick_due` now (log entry
10). -/
def placeTick (s : State) : State :=
  { s with
    attached := true
    tickDue := s.now
    trace := []
    horizon := max s.horizon s.time }

/-- A loaded run: a trace and a horizon given from outside (R66; log entry 1). -/
def State.load (trace : List TraceItem) (horizon : Nat) (s : State) : State :=
  { s with trace := trace, horizon := horizon }

end Sys2Proof.Machine
end

