-- ==== Sys2Proof/Machine/Step.lean ====
section
/-! DEFINITION. One step of IRDEC (spec/20_memory.md R60, R61): the serialiser takes a transaction, the
word is decoded for the source it came from, and the instruction runs, or IllegalTransaction is raised
(spec/30_encoding.md R87). -/

namespace Sys2Proof.Machine

/-- One transaction, whole (R60, R87). -/
def perform (src : Source) (w : TWord) (s : State) : Host.Outcome State Fault Refusal :=
  match decodeFor src w with
  | .ok i => exec i s
  | .error _ => .next (s.raiseIllegal src)

/-- One step. -/
def step (s : State) : Host.Outcome State Fault Refusal :=
  if s.traceOk then
    match arbitrate s with
    | some (a, s') => perform a.source a.word (accept a s')
    | none => .refused .noTransaction
  else .refused .traceIllFormed

/-- The state with one transaction placed so that the very next step takes it: on its port, or, for the
TICK word, in the tick scheduler (log entries 1, 10). -/
def State.withFetchWord (s : State) (_nbits w : Nat) : State :=
  let tw := BitVec.ofNat 40 w
  if tw = 0x3000000000#40 then placeTick s else placeOnPort tw s

end Sys2Proof.Machine
end

