-- ==== Sys2Proof/Machine/Assembly.lean ====
section
/-! DEFINITION. The assembly notation of spec/30_encoding.md R89: the lines of an input trace, the
pseudo-instructions and their expansions into transactions, and the text of a line. TICK is no line: it
"appears only in run listings, never in an input trace". -/

namespace Sys2Proof.Machine

/-- A button operand: a name, or a numeric identifier (R89). -/
inductive ButtonName where
  | up | down | left | right | m1 | m2 | a | b | mini0 | mini1 | mini2 | any
  | id (i : ButtonId)
deriving DecidableEq, Repr

/-- The identifier of a button operand (R51, R53). -/
def ButtonName.toId : ButtonName → ButtonId
  | .up => 0x00#8
  | .down => 0x01#8
  | .left => 0x02#8
  | .right => 0x03#8
  | .m1 => 0x04#8
  | .m2 => 0x05#8
  | .a => 0x06#8
  | .b => 0x07#8
  | .mini0 => 0x40#8
  | .mini1 => 0x41#8
  | .mini2 => 0x42#8
  | .any => 0xFF#8
  | .id i => i

/-- The operations of a trace line, the pseudo-instructions among them (R89). -/
inductive Asm where
  | mark (us : Dur)
  | space (us : Dur)
  | attach (p : Protocol) (src : SrcId)
  | subscribe (k : EventKind) (button : ButtonName) (h : HandlerId)
  | currentButton
  | wasPressed
  | readStatus
  | buttonCode (button : ButtonName)
  | pair (m s : Dur)
  | lead
  | rpt
  | b0
  | b1
  | tail (g : Dur)
  | byte (v : Code)
  | frame (a c : Code)
deriving DecidableEq, Repr

/-- `PAIR m, s` = MARK m ; SPACE s (R89). -/
def pairInstrs (m s : Dur) : List Instr := [.mark m, .space s]

/-- `LEAD` = PAIR 9000, 4500. -/
def leadInstrs : List Instr := pairInstrs 9000 4500

/-- `RPT` = PAIR 9000, 2250. -/
def rptInstrs : List Instr := pairInstrs 9000 2250

/-- `B0` = PAIR 560, 560 and `B1` = PAIR 560, 1690. -/
def bitInstrs (b : Bool) : List Instr := pairInstrs 560 (if b then 1690 else 560)

/-- The bits of a byte, bit 7 first. -/
def msbFirst (v : Code) : List Bool :=
  [v.getLsbD 7, v.getLsbD 6, v.getLsbD 5, v.getLsbD 4,
   v.getLsbD 3, v.getLsbD 2, v.getLsbD 1, v.getLsbD 0]

/-- `BYTE v` = 8 × (B0 or B1), bit 7 of v first. -/
def byteInstrs (v : Code) : List Instr := (msbFirst v).flatMap bitInstrs

/-- `FRAME a, c` = LEAD ; BYTE a ; BYTE ~a ; BYTE c ; BYTE ~c. -/
def frameInstrs (a c : Code) : List Instr :=
  leadInstrs ++ byteInstrs a ++ byteInstrs (~~~a) ++ byteInstrs c ++ byteInstrs (~~~c)

/-- The transactions a line stands for (R89). -/
def Asm.instrs : Asm → List Instr
  | .mark us => [.mark us]
  | .space us => [.space us]
  | .attach p src => [.attach p src]
  | .subscribe k button h => [.subscribe k h button.toId]
  | .currentButton => [.currentButton]
  | .wasPressed => [.wasPressed]
  | .readStatus => [.readStatus]
  | .buttonCode button => [.buttonCode button.toId]
  | .pair m s => pairInstrs m s
  | .lead => leadInstrs
  | .rpt => rptInstrs
  | .b0 => bitInstrs false
  | .b1 => bitInstrs true
  | .tail g => pairInstrs 560 g
  | .byte v => byteInstrs v
  | .frame a c => frameInstrs a c

/-- The port that follows from the mnemonic (R89). No line stands for a TICK, which has no port. -/
def sourcePort : Source → Option Port
  | .edge => some .edge
  | .host => some .host
  | .scheduler => none

/-- The trace items of the line `@t …`, all with the line's time (R89). -/
def Asm.assemble (t : Nat) (line : Asm) : List TraceItem :=
  line.instrs.filterMap fun i =>
    (sourcePort i.op.source).map fun p => { time := t, port := p, word := encode i }

/-- The text of a button operand. -/
def ButtonName.text : ButtonName → String
  | .up => "UP"
  | .down => "DOWN"
  | .left => "LEFT"
  | .right => "RIGHT"
  | .m1 => "M1"
  | .m2 => "M2"
  | .a => "A"
  | .b => "B"
  | .mini0 => "MINI0"
  | .mini1 => "MINI1"
  | .mini2 => "MINI2"
  | .any => "ANY"
  | .id i => toString i.toNat

/-- The text of a protocol operand. -/
def protocolText : Protocol → String
  | .standard => "Standard"
  | .addressLenient => "AddressLenient"

/-- The text of an action operand. -/
def kindText : EventKind → String
  | .pressed => "Pressed"
  | .released => "Released"

/-- The text of an operation, its operands decimal (R89; log entry 18). -/
def Asm.text : Asm → String
  | .mark us => "MARK " ++ toString us.toNat
  | .space us => "SPACE " ++ toString us.toNat
  | .attach p src => "ATTACH " ++ protocolText p ++ ", " ++ toString src.toNat
  | .subscribe k button h =>
    "SUBSCRIBE " ++ kindText k ++ ", " ++ button.text ++ ", " ++ toString h.toNat
  | .currentButton => "CURRENT_BUTTON"
  | .wasPressed => "WAS_PRESSED"
  | .readStatus => "READ_STATUS"
  | .buttonCode button => "BUTTON_CODE " ++ button.text
  | .pair m s => "PAIR " ++ toString m.toNat ++ ", " ++ toString s.toNat
  | .lead => "LEAD"
  | .rpt => "RPT"
  | .b0 => "B0"
  | .b1 => "B1"
  | .tail g => "TAIL " ++ toString g.toNat
  | .byte v => "BYTE " ++ toString v.toNat
  | .frame a c => "FRAME " ++ toString a.toNat ++ ", " ++ toString c.toNat

/-- The text of a trace line: `@<t> <MNEMONIC> <operands>` (R89). -/
def traceLineText (t : Nat) (line : Asm) : String := "@" ++ toString t ++ " " ++ line.text

end Sys2Proof.Machine
end

