-- ==== Sys2Proof/WellFormed.lean ====
section
/-! DEFINITION. Well-formed instructions: the one check the spec makes on a decoded operand is that a
button identifier is 0xFF or assigned in the catalogue (spec/30_encoding.md R86). Every other operand
fills its field with every value of its type. -/

namespace Sys2Proof

/-- The identifier is ANY or assigned in the catalogue (R86). -/
def legalButton (cfg : Config) (i : ButtonId) : Bool := (Machine.buttonRef cfg i).isSome

/-- A legal instruction under the catalogue of `cfg` (R86). -/
def Instr.wellFormed (cfg : Config) : Instr → Bool
  | .mark _ => true
  | .space _ => true
  | .tick => true
  | .attach _ _ => true
  | .subscribe _ _ i => legalButton cfg i
  | .currentButton => true
  | .wasPressed => true
  | .buttonCode i => legalButton cfg i
  | .readStatus => true

end Sys2Proof
end

