-- ==== Sys2Proof/Safety.lean ====
section
/-! DEFINITION. The terms in which claims about IRDEC are stated: runs and what they show
(spec/20_memory.md R66, R67), the invariants of the registers (spec/10_state.md R30 to R38) and of the
timers (spec/41_debounce_repeat.md R152), and the source's unbounded accumulator (spec/40_edge_decode.md
R115, R117). -/

namespace Sys2Proof.Machine

/-- n steps, with the event records they emit in order. `none` when one of them has no next state. -/
def runSteps : Nat → State → Option (State × List EventRecord)
  | 0, s => some (s, [])
  | n + 1, s =>
    match step s with
    | .next t => (runSteps n t).map fun r => (r.1, t.out.events ++ r.2)
    | .fault _ => none
    | .refused _ => none

/-- What each of n steps shows: its event records, response and fault, up to the first step that has no
next state (R67). -/
def observations : Nat → State → List Output
  | 0, _ => []
  | n + 1, s =>
    match step s with
    | .next t => t.out :: observations n t
    | .fault _ => []
    | .refused _ => []

/-- A list of instructions run one after another at one time, with the event records they emit. -/
def runInstrs : List Instr → State → Option (State × List EventRecord)
  | [], s => some (s, [])
  | i :: is, s =>
    match exec i s with
    | .next t => (runInstrs is t).map fun r => (r.1, t.out.events ++ r.2)
    | .fault _ => none
    | .refused _ => none

/-- The combined duration of a SPACE as an exact sum (R132). -/
def spaceSum (s : State) (d : Dur) : Nat := s.markLatch.toNat + d.toNat

/-- The bit that a sum below T_REPEAT stands for: 1 from T_BIT1 on (R100). -/
def sumBit (cfg : Config) (d : Nat) : Bool := decide (cfg.tBit1 ≤ d)

/-- What a list of bits does to the accumulator: the result of each PUSH_BIT, and the state left. -/
def pushBits : List Bool → State → List (Option Code) × State
  | [], s => ([], s)
  | b :: bs, s => ((pushBit b s).1 :: (pushBits bs (pushBit b s).2).1, (pushBits bs (pushBit b s).2).2)

/-- The output of a step that only answers `v` on HOST. -/
def answer (v : Resp) : Output := { events := [], response := some v, fault := none }

/-- The output of a step that only emits events. -/
def announce (evs : List EventRecord) : Output := { events := evs, response := none, fault := none }

/-- The record of an event, its `match` bits read from the table (R91, R206). -/
def record (table : List SubEntry) (k : EventKind) (c : Code) : EventRecord :=
  { kind := k, code := c, matched := matchBits table k c }

/-- A word on a source is an illegal transaction: from every state its only effect is the sticky flag,
with RESP = 0 on HOST and no event (R203). -/
def IllegalOn (src : Source) (w : TWord) : Prop :=
  ∀ s : State, perform src w s = .next { s with
    faultIllegal := true
    out := {
      events := []
      response := (match src with
        | .host => some 0
        | .edge => none
        | .scheduler => none)
      fault := some .illegalTransaction } }

/-- A run in which no transaction was illegal: the premise claims about a run take (R203). -/
def State.faultFree (s : State) : Prop := s.faultIllegal = false

/-- The event history and the held code agree: from `held`, each Pressed finds the engine Idle and each
Released names the held code; what is held at the end is the result (R38, R154). -/
def replay : Code9 → List EventRecord → Option Code9
  | held, [] => some held
  | held, e :: es =>
    match e.kind with
    | .pressed => if held = noneCode then replay (wireCode e.code) es else none
    | .released => if held = wireCode e.code then replay noneCode es else none

/-- The registers before the first ATTACH are at their reset values (R232). -/
structure DetachedOk (s : State) : Prop where
  protocol_reset : s.protocol = .standard
  src_reset : s.srcSel = 0
  mark_reset : s.markLatch = 0
  bits_reset : s.bitsReceived = 0
  command_reset : s.commandBits = 0
  last_none : s.lastCommand = noneCode
  unread_clear : s.hasUnreadPress = false
  active_none : s.activeCommand = noneCode
  deadline_reset : s.repeatDeadline = 0
  due_reset : s.tickDue = 0

/-- The invariant of the registers (R30, R33, R34, R232). -/
structure RegistersOk (s : State) : Prop where
  cfg_wf : s.cfg.wf = true
  table_length : s.subTable.length = s.cfg.subSlots
  count_le : s.subCount.toNat ≤ s.cfg.subSlots
  slot_valid : ∀ i e, s.subTable[i]? = some e → e.valid = decide (i < s.subCount.toNat)
  slot_empty : ∀ e ∈ s.subTable, e.valid = false → e = SubEntry.empty
  any_no_code : ∀ e ∈ s.subTable, e.any = true → e.code = 0
  active_ok : isNoneOrWire s.activeCommand = true
  last_ok : isNoneOrWire s.lastCommand = true
  held_is_last : s.held = true → s.lastCommand = s.activeCommand
  detached_ok : s.attached = false → DetachedOk s

/-- How far off the next TICK is, in ms. -/
def untilTick (s : State) : Nat := (s.tickDue - s.now).toNat

/-- How far off the time 120 ms after the repeat deadline is: 240 ms right after a refresh. -/
def untilLatestRelease (s : State) : Nat := (s.repeatDeadline + 120#32 - s.now).toNat

/-- The invariant of the timers, for the 120 ms window of this hardware. A TICK is never more than 240 ms
off, and while a code is held the next TICK comes at most 240 ms after the last refresh (R152, R153). -/
structure TimingOk (s : State) : Prop where
  window : s.cfg.repeatWindowMs = 120#32
  idle_before_attach : s.attached = false → s.held = false
  tick_near : s.attached = true → untilTick s ≤ 240
  release_near : s.held = true → untilLatestRelease s ≤ 240
  tick_before_release : s.held = true → untilTick s ≤ untilLatestRelease s

/-- The source's accumulator: a counter without bound and a register that is never masked (R115,
R116). -/
structure SourceAccumulator where
  count : Nat
  bits : Nat
deriving DecidableEq, Repr

/-- One input of the accumulator: a bit (`some`), or a symbol that resyncs (`none`). The completed byte
is "masked to 8 bits" when it is returned (R115). -/
def SourceAccumulator.feed (p : Protocol) (x : Option Bool) (r : SourceAccumulator) :
    Option Nat × SourceAccumulator :=
  match x with
  | none => (none, { r with count := 0 })
  | some b =>
    if r.count + 1 ≤ 8 then
      (none, { r with count := if p = .addressLenient ∧ b = true then 9 else r.count + 1 })
    else if r.count + 1 ≤ 16 then (none, { r with count := r.count + 1 })
    else if r.count + 1 ≤ 24 then
      (if r.count + 1 = 24 then some ((r.bits * 2 + b.toNat) % 256) else none,
        { count := r.count + 1, bits := r.bits * 2 + b.toNat })
    else (none, { r with count := r.count + 1 })

/-- The results of a list of inputs to the source's accumulator, and what it ends in. -/
def SourceAccumulator.feedAll (p : Protocol) :
    List (Option Bool) → SourceAccumulator → List (Option Nat) × SourceAccumulator
  | [], r => ([], r)
  | x :: xs, r => ((r.feed p x).1 :: (feedAll p xs (r.feed p x).2).1, (feedAll p xs (r.feed p x).2).2)

/-- The same inputs to IRDEC's accumulator. -/
def feedAccumulator : List (Option Bool) → State → List (Option Code) × State
  | [], s => ([], s)
  | none :: xs, s => (none :: (feedAccumulator xs (resync s)).1, (feedAccumulator xs (resync s)).2)
  | some b :: xs, s =>
    ((pushBit b s).1 :: (feedAccumulator xs (pushBit b s).2).1, (feedAccumulator xs (pushBit b s).2).2)

/-- The number of commands completed in a list of accumulator results. -/
def completions (rs : List (Option Code)) : Nat := (rs.filter Option.isSome).length

/-- Equal but for `command_bits`, which agrees where a byte in progress has bits of its own: in positions
17..24 the low n - 16 bits (R27, R118). -/
def AgreeButCommandBits (s t : State) : Prop :=
  t = { s with commandBits := t.commandBits } ∧
    (16 < s.bitsReceived.toNat → s.bitsReceived.toNat < 24 →
      s.commandBits.toNat % 2 ^ (s.bitsReceived.toNat - 16) =
        t.commandBits.toNat % 2 ^ (s.bitsReceived.toNat - 16))

/-- Equal but for `repeat_deadline`, and only while Idle (R31). -/
def AgreeButIdleDeadline (s t : State) : Prop :=
  t = { s with repeatDeadline := t.repeatDeadline } ∧
    (s.held = true → t.repeatDeadline = s.repeatDeadline)

end Sys2Proof.Machine
end

