-- ==== Sys2Proof/Certificates/Slice0/Obligations.lean ====
section
/-! DEFINITION. The statements for the provers, in this order: encoding, the transactions one by one,
reset and the invariants, the serialiser, the whole-machine rules. A statement of what an instruction does
gives the whole next state, so it states the instruction's frame as well: every field that is not named
in the record update is unchanged. -/

open Sys2Proof Sys2Proof.Machine

/-! ### Encoding -/

/-- Words written out from the formats of R81 and the examples of the rules decode to the transactions
they spell. -/
def Obligations.HandWrittenWordsDecode : Prop :=
  decode 0x1000002328#40 = .ok (.mark 9000#32) ∧
  decode 0x200000069A#40 = .ok (.space 1690#32) ∧
  decode 0x3000000000#40 = .ok .tick ∧
  decode 0x4100000005#40 = .ok (.attach .addressLenient 5#8) ∧
  decode 0x5100000806#40 = .ok (.subscribe .released 8#8 6#8) ∧
  decode 0x6000000000#40 = .ok .currentButton ∧
  decode 0x7000000000#40 = .ok .wasPressed ∧
  decode 0x80000000FF#40 = .ok (.buttonCode 0xFF#8) ∧
  decode 0x9000000000#40 = .ok .readStatus

/-- Decoding and encoding agree both ways: every instruction's word decodes to it, with every operand at
every value, and a word decodes to an instruction only if it is that instruction's word, so no bit of a
legal word is ignored (R85: "There are no 'ignore' bits"). -/
def Obligations.DecodeAndEncodeAgree : Prop :=
  ∀ (w : TWord) (i : Instr), decode w = .ok i ↔ w = encode i

/-- R83: "No two rows match the same word." -/
def Obligations.NoWordSelectsTwoRows : Prop :=
  ∀ (w : TWord) (a b : Op), a.selects w = true → b.selects w = true → a = b

/-- Which words decode at all, in the fields of R80 and R81: a known opcode with every reserved bit 0. -/
def Obligations.LegalWordsByField : Prop :=
  ∀ w : TWord, (∃ i, decode w = .ok i) ↔
    ((opField w = 0x1#4 ∨ opField w = 0x2#4) ∧ subField w = 0#4) ∨
    ((opField w = 0x3#4 ∨ opField w = 0x6#4 ∨ opField w = 0x7#4 ∨ opField w = 0x9#4) ∧
      subField w = 0#4 ∧ argField w = 0#32) ∨
    (opField w = 0x4#4 ∧ (subField w).toNat < 2 ∧ (argField w).toNat < 2 ^ 8) ∨
    (opField w = 0x5#4 ∧ (subField w).toNat < 2 ∧ (argField w).toNat < 2 ^ 16) ∨
    (opField w = 0x8#4 ∧ subField w = 0#4 ∧ (argField w).toNat < 2 ^ 8)

/-- R202, R203 at the decoder: on a source, a word that spells no transaction of that source sets the
sticky flag, answers RESP = 0 on HOST, emits nothing and changes nothing else. Cause 4, the unassigned
identifier, is in the statements of SUBSCRIBE and BUTTON_CODE. -/
def Obligations.UndecodableWordsAreIllegal : Prop :=
  ∀ (src : Source) (w : TWord),
    (∀ i, decode w = .ok i → i.op.source ≠ src) → IllegalOn src w

/-! ### The EDGE transactions -/

/-- R134: before the first ATTACH, MARK and SPACE change no state, emit no event and raise no fault. -/
def Obligations.EdgesBeforeAttachAreLost : Prop :=
  ∀ (s : State) (d : Dur), s.attached = false →
    exec (.mark d) s = .next { s with out := Output.quiet } ∧
    exec (.space d) s = .next { s with out := Output.quiet }

/-- R130: once attached, MARK latches its duration and does nothing else, so that of two in a row the later
one stays; before, it does nothing. A word with OP 0x1 is MARK of its ARG on EDGE, is
illegal there when SUB is not 0, and is illegal on HOST. -/
def Obligations.MarkLatchesTheDuration : Prop :=
  (∀ (s : State) (d : Dur), exec (.mark d) s = .next { s with
      markLatch := if s.attached then d else s.markLatch
      out := Output.quiet }) ∧
  (∀ (s : State) (d d' : Dur), s.attached = true →
    runInstrs [.mark d, .mark d'] s = some ({ s with markLatch := d', out := Output.quiet }, [])) ∧
  (∀ w : TWord, opField w = 0x1#4 →
    (subField w = 0#4 → decodeFor .edge w = .ok (.mark (argField w))) ∧
    (subField w ≠ 0#4 → IllegalOn .edge w) ∧ IllegalOn .host w)

/-- R100, R101: the five bands of the classifier with this hardware's thresholds, each with an inclusive
lower and an exclusive upper bound. -/
def Obligations.ClassifierBands : Prop :=
  ∀ d : CombinedDur,
    (d.toNat < 1600 → classify Config.hardware d = .bit0) ∧
    (1600 ≤ d.toNat → d.toNat < 2700 → classify Config.hardware d = .bit1) ∧
    (2700 ≤ d.toNat → d.toNat < 12500 → classify Config.hardware d = .repeatSym) ∧
    (12500 ≤ d.toNat → d.toNat < 14500 → classify Config.hardware d = .frameStart) ∧
    (14500 ≤ d.toNat → classify Config.hardware d = .incomplete)

/-- R102: a non-bit symbol sets the counter to 0 in the same step, whatever it was, and leaves
`command_bits`; a bit symbol does not set it to 0. -/
def Obligations.NonBitSymbolsResync : Prop :=
  ∀ (s : State) (d : Dur), s.attached = true → s.cfg.wf = true →
    (s.cfg.tRepeat ≤ spaceSum s d →
      ∃ t, exec (.space d) s = .next t ∧ t.bitsReceived = 0 ∧ t.commandBits = s.commandBits) ∧
    (spaceSum s d < s.cfg.tRepeat →
      ∃ t, exec (.space d) s = .next t ∧ t.bitsReceived ≠ 0)

/-- R103, R125: FrameStart and Incomplete have the same effect, the resync and nothing else. -/
def Obligations.SpaceFrameStartOrNoise : Prop :=
  ∀ (s : State) (d : Dur), s.attached = true → s.cfg.wf = true → s.cfg.tStart ≤ spaceSum s d →
    exec (.space d) s = .next { s with bitsReceived := 0, out := Output.quiet }

/-- R143, R144: a repeat sentinel refreshes the deadline while Held and has no effect on the engine while
Idle; either way the counter resyncs and no event is emitted. -/
def Obligations.SpaceRepeatRefreshesOnlyWhileHeld : Prop :=
  ∀ (s : State) (d : Dur), s.attached = true → s.cfg.wf = true →
    s.cfg.tRepeat ≤ spaceSum s d → spaceSum s d < s.cfg.tStart →
    exec (.space d) s = .next { s with
      bitsReceived := 0
      repeatDeadline :=
        if s.activeCommand = 0x100#9 then s.repeatDeadline
        else BitVec.ofNat 32 s.time + s.cfg.repeatWindowMs
      out := Output.quiet }

/-- R111, R112, R113, R116: bits outside the command window are discarded and move the counter. In the
address window it goes on by one, or to 9 for a 1 under AddressLenient; in the inverted-address window it
goes on by one under either protocol; past the command window it climbs and stays at 63. -/
def Obligations.SpaceBitsOutsideTheCommandWindow : Prop :=
  ∀ (s : State) (d : Dur), s.attached = true → spaceSum s d < s.cfg.tRepeat →
    (s.bitsReceived.toNat + 1 ≤ 8 →
      exec (.space d) s = .next { s with
        bitsReceived :=
          if s.protocol = .addressLenient ∧ s.cfg.tBit1 ≤ spaceSum s d then 9#6
          else s.bitsReceived + 1
        out := Output.quiet }) ∧
    (9 ≤ s.bitsReceived.toNat + 1 → s.bitsReceived.toNat + 1 ≤ 16 →
      exec (.space d) s = .next { s with bitsReceived := s.bitsReceived + 1, out := Output.quiet }) ∧
    (24 < s.bitsReceived.toNat + 1 →
      exec (.space d) s = .next { s with
        bitsReceived := if s.bitsReceived = 63#6 then 63#6 else s.bitsReceived + 1
        out := Output.quiet })

/-- R114: a bit at positions 17..23 is shifted into `command_bits`, and nothing is emitted. -/
def Obligations.SpaceCommandWindowShifts : Prop :=
  ∀ (s : State) (d : Dur), s.attached = true → s.cfg.wf = true → spaceSum s d < s.cfg.tRepeat →
    17 ≤ s.bitsReceived.toNat + 1 → s.bitsReceived.toNat + 1 ≤ 23 →
    exec (.space d) s = .next { s with
      commandBits := s.commandBits * 2 + (if s.cfg.tBit1 ≤ spaceSum s d then 1 else 0)
      bitsReceived := s.bitsReceived + 1
      out := Output.quiet }

/-- R115, R141, R142: the bit at position 24 completes the command, which is written to `last_command`.
From Idle, or when the code differs from the held one, the held code is released, then the new one
pressed, in this step; the flag is set and the deadline refreshed. A code equal to the held one emits
nothing, leaves the flag, and refreshes the deadline when SAME_CODE_REFRESH says so. -/
def Obligations.SpaceCompletesTheCommand : Prop :=
  ∀ (s : State) (d : Dur) (c : Code), s.attached = true → spaceSum s d < s.cfg.tRepeat →
    s.bitsReceived = 23#6 →
    c = s.commandBits * 2 + (if s.cfg.tBit1 ≤ spaceSum s d then 1 else 0) →
    (s.activeCommand ≠ c.setWidth 9 →
      exec (.space d) s = .next { s with
        bitsReceived := 24#6
        commandBits := c
        lastCommand := c.setWidth 9
        activeCommand := c.setWidth 9
        hasUnreadPress := true
        repeatDeadline := BitVec.ofNat 32 s.time + s.cfg.repeatWindowMs
        out := announce
          ((if s.activeCommand = 0x100#9 then []
            else [record s.subTable .released (s.activeCommand.extractLsb' 0 8)])
            ++ [record s.subTable .pressed c]) }) ∧
    (s.activeCommand = c.setWidth 9 →
      exec (.space d) s = .next { s with
        bitsReceived := 24#6
        commandBits := c
        lastCommand := c.setWidth 9
        repeatDeadline :=
          if s.cfg.sameCodeRefresh then BitVec.ofNat 32 s.time + s.cfg.repeatWindowMs
          else s.repeatDeadline
        out := Output.quiet })

/-! ### TICK -/

/-- R145, R146, R147: a TICK while Held after the deadline releases, goes Idle and sleeps 2 × the window,
with `last_command` and the counter unchanged; while Idle, or while Held with the deadline not yet passed
(the deadline itself included), it changes only `tick_due`. Its word is TICK for the
scheduler, and is illegal on EDGE and on HOST. -/
def Obligations.TickReleasesOrReschedules : Prop :=
  (∀ s : State, s.activeCommand ≠ 0x100#9 →
    after (BitVec.ofNat 32 s.time) s.repeatDeadline = true →
    exec .tick s = .next { s with
      activeCommand := 0x100#9
      tickDue := BitVec.ofNat 32 s.time + 2 * s.cfg.repeatWindowMs
      out := announce [record s.subTable .released (s.activeCommand.extractLsb' 0 8)] }) ∧
  (∀ s : State,
    (s.activeCommand = 0x100#9 ∨ after (BitVec.ofNat 32 s.time) s.repeatDeadline = false) →
    exec .tick s = .next { s with
      tickDue := BitVec.ofNat 32 s.time +
        (if s.activeCommand = 0x100#9 then 2 * s.cfg.repeatWindowMs else s.cfg.repeatWindowMs)
      out := Output.quiet }) ∧
  decodeFor .scheduler 0x3000000000#40 = .ok .tick ∧
  IllegalOn .edge 0x3000000000#40 ∧ IllegalOn .host 0x3000000000#40

/-- R10: `after(a, b)` is true exactly when (a - b) mod 2^32 lies in 1 .. 2^31 - 1, and it equals the
unbounded comparison whenever the true times differ by less than 2^31 ms. -/
def Obligations.AfterIsUnboundedComparison : Prop :=
  (∀ a b : Time, after a b = true ↔ 1 ≤ (a - b).toNat ∧ (a - b).toNat ≤ 2 ^ 31 - 1) ∧
  (∀ a b : Nat, a < b + 2 ^ 31 → b < a + 2 ^ 31 →
    (after (BitVec.ofNat 32 a) (BitVec.ofNat 32 b) = true ↔ b < a))

/-! ### The HOST transactions -/

/-- R170, R171: the first ATTACH stores the protocol and the source, sets `tick_due` to now and answers 1;
while attached, ATTACH changes no state, raises no fault and answers 0. A word with OP 0x4
is ATTACH on HOST, the protocol in SUB[0] and the source in ARG[7:0]; with a reserved bit set it is
illegal, and any is on EDGE. -/
def Obligations.OnlyTheFirstAttachAttaches : Prop :=
  (∀ (s : State) (p : Protocol) (src : SrcId), s.attached = false →
    exec (.attach p src) s = .next { s with
      attached := true
      protocol := p
      srcSel := src
      tickDue := BitVec.ofNat 32 s.time
      out := answer 1 }) ∧
  (∀ (s : State) (p : Protocol) (src : SrcId), s.attached = true →
    exec (.attach p src) s = .next { s with out := answer 0 }) ∧
  (∀ w : TWord, opField w = 0x4#4 →
    ((subField w).toNat < 2 → (argField w).toNat < 2 ^ 8 →
      decodeFor .host w = .ok (.attach
        (if subField w = 1#4 then .addressLenient else .standard) ((argField w).extractLsb' 0 8))) ∧
    (2 ≤ (subField w).toNat ∨ 2 ^ 8 ≤ (argField w).toNat → IllegalOn .host w) ∧ IllegalOn .edge w)

/-- R172: a SUBSCRIBE with a slot free writes slot `sub_count`, counts it and answers the slot, before
ATTACH as after; the stored code is the catalogue's. With the table full it sets `sub_overflow` (R173),
and an unassigned identifier is illegal whether the table is full or not. A word with OP 0x5 is
SUBSCRIBE on HOST, the action in SUB[0], the handler in ARG[15:8] and the identifier in ARG[7:0]; with a
reserved bit set it is illegal, and any is on EDGE. -/
def Obligations.SubscribeStoresTheSlot : Prop :=
  (∀ (s : State) (a : EventKind) (h : HandlerId) (b : ButtonId) (e : SubEntry),
    ((b = 0xFF#8 ∧
        e = { valid := true, action := a, any := true, code := 0, handler := h }) ∨
      (b ≠ 0xFF#8 ∧ ∃ c, catRead s.cfg b = some c ∧
        e = { valid := true, action := a, any := false, code := c, handler := h })) →
    exec (.subscribe a h b) s = .next
      (if s.subCount.toNat = s.cfg.subSlots then { s with subOverflow := true, out := answer 0 }
      else { s with
        subTable := s.subTable.set s.subCount.toNat e
        subCount := s.subCount + 1
        out := answer (s.subCount.setWidth 32 * 256 + 1) })) ∧
  (∀ (s : State) (a : EventKind) (h : HandlerId) (b : ButtonId),
    b ≠ 0xFF#8 → catRead s.cfg b = none →
    exec (.subscribe a h b) s = .next { s with
      faultIllegal := true
      out := { events := [], response := some 0, fault := some .illegalTransaction } }) ∧
  (∀ w : TWord, opField w = 0x5#4 →
    ((subField w).toNat < 2 → (argField w).toNat < 2 ^ 16 →
      decodeFor .host w = .ok (.subscribe (if subField w = 1#4 then .released else .pressed)
        ((argField w).extractLsb' 8 8) ((argField w).extractLsb' 0 8))) ∧
    (2 ≤ (subField w).toNat ∨ 2 ^ 16 ≤ (argField w).toNat → IllegalOn .host w) ∧ IllegalOn .edge w)

/-- R173: a SUBSCRIBE of a legal identifier to a full table stores nothing, sets the sticky `sub_overflow`
and answers 0. -/
def Obligations.SubscribeToAFullTable : Prop :=
  ∀ (s : State) (a : EventKind) (h : HandlerId) (b : ButtonId),
    s.subCount.toNat = s.cfg.subSlots →
    (b = 0xFF#8 ∨ ∃ c, catRead s.cfg b = some c) →
    exec (.subscribe a h b) s = .next { s with subOverflow := true, out := answer 0 }

/-- R174: CURRENT_BUTTON answers `last_command` and changes no state. Its word with any other bit set is
illegal, and any is on EDGE. -/
def Obligations.CurrentButtonAnswersLastCommand : Prop :=
  (∀ s : State, ∃ r : Resp,
    exec .currentButton s = .next { s with out := answer r } ∧ r.toNat = s.lastCommand.toNat) ∧
  (∀ w : TWord, opField w = 0x6#4 →
    (subField w = 0#4 → argField w = 0#32 → decodeFor .host w = .ok .currentButton) ∧
    (subField w ≠ 0#4 ∨ argField w ≠ 0#32 → IllegalOn .host w) ∧ IllegalOn .edge w)

/-- R175: WAS_PRESSED answers the flag and clears it in the same step; asked again it answers 0. Its word
with any other bit set is illegal, and any is on EDGE. -/
def Obligations.WasPressedConsumesTheFlag : Prop :=
  (∀ s : State, exec .wasPressed s = .next { s with
      hasUnreadPress := false
      out := answer (if s.hasUnreadPress then 1 else 0) }) ∧
  (∀ s t : State, exec .wasPressed s = .next t →
    exec .wasPressed t = .next { t with out := answer 0 }) ∧
  (∀ w : TWord, opField w = 0x7#4 →
    (subField w = 0#4 → argField w = 0#32 → decodeFor .host w = .ok .wasPressed) ∧
    (subField w ≠ 0#4 ∨ argField w ≠ 0#32 → IllegalOn .host w) ∧ IllegalOn .edge w)

/-- R176: BUTTON_CODE answers the catalogue's code, or 0x1FF for ANY, and changes no state; an unassigned
identifier is illegal. Its word with a reserved bit set is illegal, and any is on EDGE. -/
def Obligations.ButtonCodeLooksUp : Prop :=
  (∀ s : State, exec (.buttonCode 0xFF#8) s = .next { s with out := answer 0x1FF }) ∧
  (∀ (s : State) (b : ButtonId) (c : Code), b ≠ 0xFF#8 → catRead s.cfg b = some c →
    exec (.buttonCode b) s = .next { s with out := answer (c.setWidth 32) }) ∧
  (∀ (s : State) (b : ButtonId), b ≠ 0xFF#8 → catRead s.cfg b = none →
    exec (.buttonCode b) s = .next { s with
      faultIllegal := true
      out := { events := [], response := some 0, fault := some .illegalTransaction } }) ∧
  (∀ w : TWord, opField w = 0x8#4 →
    (subField w = 0#4 → (argField w).toNat < 2 ^ 8 →
      decodeFor .host w = .ok (.buttonCode ((argField w).extractLsb' 0 8))) ∧
    (subField w ≠ 0#4 ∨ 2 ^ 8 ≤ (argField w).toNat → IllegalOn .host w) ∧ IllegalOn .edge w)

/-- R177, with the STATUS layout of R90: READ_STATUS changes no state and answers STATUS, field by field.
Its word with any other bit set is illegal, and any is on EDGE. -/
def Obligations.ReadStatusLayout : Prop :=
  (∀ s : State, ∃ r : Resp,
    exec .readStatus s = .next { s with out := answer r } ∧
    r.getLsbD 0 = s.attached ∧
    r.getLsbD 1 = decide (s.protocol = .addressLenient) ∧
    r.getLsbD 2 = decide (s.activeCommand ≠ 0x100#9) ∧
    r.getLsbD 3 = s.faultIllegal ∧
    r.getLsbD 4 = s.subOverflow ∧
    r.extractLsb' 5 3 = 0#3 ∧
    r.extractLsb' 8 8 =
      (if s.activeCommand = 0x100#9 then 0#8 else s.activeCommand.extractLsb' 0 8) ∧
    r.extractLsb' 16 8 = s.subCount ∧
    r.extractLsb' 24 8 = 0#8) ∧
  (∀ w : TWord, opField w = 0x9#4 →
    (subField w = 0#4 → argField w = 0#32 → decodeFor .host w = .ok .readStatus) ∧
    (subField w ≠ 0#4 ∨ argField w ≠ 0#32 → IllegalOn .host w) ∧ IllegalOn .edge w)

/-- R51, R52, R53: the catalogue entries of the source hold whatever the parameter is; 0x80..0xFF have no
code; and with this hardware's parameter nothing else is assigned. -/
def Obligations.CatalogueEntries : Prop :=
  (∀ cfg : Config,
    catRead cfg 0x00#8 = some 0x11#8 ∧ catRead cfg 0x01#8 = some 0x91#8 ∧
    catRead cfg 0x02#8 = some 0x81#8 ∧ catRead cfg 0x03#8 = some 0xA1#8 ∧
    catRead cfg 0x04#8 = some 0xE9#8 ∧ catRead cfg 0x05#8 = some 0x69#8 ∧
    catRead cfg 0x06#8 = some 0x21#8 ∧ catRead cfg 0x07#8 = some 0x01#8 ∧
    catRead cfg 0x40#8 = some 0xA2#8 ∧ catRead cfg 0x41#8 = some 0x62#8 ∧
    catRead cfg 0x42#8 = some 0xE2#8 ∧
    (∀ i : ButtonId, 0x80 ≤ i.toNat → catRead cfg i = none)) ∧
  (∀ i : ButtonId, 0x08 ≤ i.toNat → i.toNat ≤ 0x3F → catRead Config.hardware i = none) ∧
  (∀ i : ButtonId, 0x43 ≤ i.toNat → i.toNat ≤ 0x7F → catRead Config.hardware i = none)

/-! ### Events -/

/-- R206: bit i of the match field is 1 exactly for the slots that match. -/
def Obligations.MatchBitsSelectTheSlots : Prop :=
  ∀ (table : List SubEntry) (k : EventKind) (c : Code) (i : Nat) (e : SubEntry),
    table[i]? = some e →
    ((record table k c).matched[i]? = some true ↔
      e.valid = true ∧ e.action = k ∧ (e.any = true ∨ e.code = c))

/-- R207: for an event of the table the host runs the handlers of the matching slots in ascending slot
order, once each. -/
def Obligations.DispatchInSlotOrder : Prop :=
  ∀ (table : List SubEntry) (k : EventKind) (c : Code),
    dispatchOrder table (record table k c) =
      (table.filter fun e =>
        e.valid && decide (e.action = k) && (e.any || decide (e.code = c))).map (·.handler)

/-- R205, R208: only SPACE and TICK emit. A step emits nothing, one event, or Released of the held code
and then Pressed of another; never two of a kind. Each record's match bits are those of the table the
step leaves (R210). -/
def Obligations.EventsOfAnInstruction : Prop :=
  ∀ (i : Instr) (s t : State), exec i s = .next t →
    t.out.events = [] ∨
    (∃ c, t.out.events = [record t.subTable .pressed c] ∧ ∃ d, i = .space d) ∨
    (∃ c, t.out.events = [record t.subTable .released c] ∧ i = .tick) ∨
    (∃ c' c, t.out.events = [record t.subTable .released c', record t.subTable .pressed c] ∧
      (∃ d, i = .space d) ∧ s.activeCommand ≠ c.setWidth 9 ∧ c' = s.activeCommand.extractLsb' 0 8)

/-! ### Completion and faults over all instructions -/

/-- R201: every well-formed instruction completes from every state, at every timestamp and with every
operand, without a fault, and leaves the sticky fault flag as it was; one on HOST answers, no other does
(R90). -/
def Obligations.WellFormedInstructionsComplete : Prop :=
  ∀ (i : Instr) (s : State), i.wellFormed s.cfg = true →
    ∃ t, exec i s = .next t ∧ t.out.fault = none ∧ t.faultIllegal = s.faultIllegal ∧
      (t.out.response.isSome = true ↔ i.op.source = .host)

/-! ### Reset and the invariants -/

/-- R230: every register at its reset value, whatever SUB_SLOTS is, and this hardware's parameters
(spec/00_scope.md section 4). -/
def Obligations.ResetValues : Prop :=
  (State.reset.cfg = Config.hardware ∧
    Config.hardware.subSlots = 16 ∧ Config.hardware.sameCodeRefresh = true ∧
    Config.hardware.catalogueExtra = [] ∧
    Config.hardware.tBit1 = 1600 ∧ Config.hardware.tRepeat = 2700 ∧
    Config.hardware.tStart = 12500 ∧ Config.hardware.tNoise = 14500 ∧
    Config.hardware.repeatWindowMs = 120#32 ∧
    Config.hardware.heldTickMs = 120#32 ∧ Config.hardware.idleTickMs = 240#32) ∧
  ∀ (cfg : Config) (s : State), (s = State.powerOn cfg ∨ (cfg = Config.hardware ∧ s = State.reset)) →
    s.attached = false ∧ s.protocol = .standard ∧ s.srcSel = 0 ∧ s.markLatch = 0 ∧
    s.bitsReceived = 0 ∧ s.commandBits = 0 ∧ s.lastCommand = 0x100#9 ∧ s.hasUnreadPress = false ∧
    s.activeCommand = 0x100#9 ∧ s.repeatDeadline = 0 ∧ s.tickDue = 0 ∧ s.subCount = 0 ∧
    s.subTable.length = cfg.subSlots ∧
    (∀ e ∈ s.subTable, e = { valid := false, action := .pressed, any := false, code := 0, handler := 0 }) ∧
    s.faultIllegal = false ∧ s.subOverflow = false

/-- Both invariants hold after reset. -/
def Obligations.ResetMeetsTheInvariants : Prop :=
  RegistersOk State.reset ∧ TimingOk State.reset

/-- Every step keeps the invariant of the registers: parameters fixed and well-formed, the table's shape
(R33, R34, R54), `active_command` and `last_command` NONE or a wire code (R30), a held code is the last
command, and before the first ATTACH the decoder is at its reset values (R232). -/
def Obligations.StepKeepsRegistersOk : Prop :=
  ∀ s t : State, RegistersOk s → step s = .next t → RegistersOk t

/-- Every step keeps the invariant of the timers, which bounds the next TICK and the release of a held
code (R152, R153). -/
def Obligations.StepKeepsTimingOk : Prop :=
  ∀ s t : State, TimingOk s → step s = .next t → TimingOk t

/-- R152: while Held, the deadline lies within 120 ms of the time of the next TICK, so the 32-bit
comparison of that TICK is the comparison of the true times. -/
def Obligations.TickComparesWithin120Ms : Prop :=
  ∀ s : State, TimingOk s → s.attached = true → s.held = true →
    (s.tickDue - s.repeatDeadline).toInt ≤ 120 ∧ -120 ≤ (s.tickDue - s.repeatDeadline).toInt

/-- R153, R238: a timeout release falls more than 120 ms and at most 240 ms after the last refresh, whose
time is 120 ms before the deadline. -/
def Obligations.TimeoutReleaseWindow : Prop :=
  ∀ s t : State, TimingOk s → s.held = true → step s = .next t → t.held = false →
    120 < (t.now - (s.repeatDeadline - 120#32)).toNat ∧
    (t.now - (s.repeatDeadline - 120#32)).toNat ≤ 240

/-- R153: after a refresh, in silence, the release comes: within three TICKs, each of the earlier ones
emitting nothing, Released of the held code is emitted more than 120 ms and at most 240 ms after the last
refresh. -/
def Obligations.SilenceReleasesTheButton : Prop :=
  ∀ s : State, TimingOk s → s.attached = true → s.held = true → s.trace = [] →
    s.time + 480 ≤ s.horizon →
    ∃ n t, n ≤ 3 ∧
      runSteps n s = some (t, [record s.subTable .released (s.activeCommand.extractLsb' 0 8)]) ∧
      t.held = false ∧
      120 < (t.now - (s.repeatDeadline - 120#32)).toNat ∧
      (t.now - (s.repeatDeadline - 120#32)).toNat ≤ 240

/-! ### The serialiser and the step -/

/-- A step runs the transaction the serialiser takes: the decoded instruction, at the arrival's time and
with the arrival off the trace; or the fault, when the word is illegal on its source. The step advances
nothing else around `exec`: there is no program counter (R21). -/
def Obligations.StepRunsTheDecodedInstruction : Prop :=
  ∀ (s s' : State) (a : Arrival), s.traceOk = true → arbitrate s = some (a, s') →
    (∀ i, decode a.word = .ok i → i.op.source = a.source →
      step s = exec i { s' with time := a.time, trace := traceAfter a.source s'.trace }) ∧
    ((∀ i, decode a.word = .ok i → i.op.source ≠ a.source) →
      step s = .next { s' with
        time := a.time
        trace := traceAfter a.source s'.trace
        faultIllegal := true
        out := {
          events := []
          response := if a.source = .host then some 0 else none
          fault := some .illegalTransaction } })

/-- A word placed for the next step is the transaction that step takes, from every state, at the state's
time and with every register kept: on its own port, or, for the TICK word, in the tick scheduler, which
is attached with `tick_due` at now (log entries 1, 10). -/
def Obligations.PlacedWordRunsNext : Prop :=
  (∀ (s : State) (i : Instr), i ≠ .tick →
    step (s.withFetchWord 40 (encode i).toNat) =
      exec i { s with trace := [], horizon := max s.horizon s.time }) ∧
  (∀ s : State, step (s.withFetchWord 40 (encode .tick).toNat) =
    exec .tick { s with
      attached := true
      tickDue := BitVec.ofNat 32 s.time
      trace := []
      horizon := max s.horizon s.time })

/-- The TICK of the scheduler: attached, with no input left, the next step is TICK at `tick_due`,
whose unbounded time is read back (log entry 8, DEDUCED). -/
def Obligations.SchedulerIssuesTheTick : Prop :=
  ∀ s : State, s.attached = true → s.trace = [] → nextTickTime s ≤ s.horizon →
    step s = exec .tick { s with time := nextTickTime s } ∧
    BitVec.ofNat 32 (nextTickTime s) = s.tickDue

/-- R62: what is taken is one of the transactions on offer, none of which is earlier; every one of the
earliest is taken for some choice, so every order of equal-time transactions of different sources is
admitted; and each port keeps its own order: it offers its first item in the trace, and taking it removes
that item and no other. -/
def Obligations.SerialiserTakesAnyEarliest : Prop :=
  (∀ (s s' : State) (a : Arrival), arbitrate s = some (a, s') →
    a ∈ arrivals s ∧ (∀ b ∈ arrivals s, a.time ≤ b.time) ∧
    s' = { s with picks := s'.picks, ties := s'.ties }) ∧
  (∀ (s : State) (a : Arrival), a ∈ arrivals s → (∀ b ∈ arrivals s, a.time ≤ b.time) →
    ∃ k s', arbitrate { s with picks := k :: s.picks } = some (a, s')) ∧
  (∀ (p : Port) (before after' : List TraceItem) (x : TraceItem),
    (∀ y ∈ before, y.port ≠ p) → x.port = p →
    firstOn p (before ++ x :: after') = some x ∧
    traceAfter (portSource p) (before ++ x :: after') = before ++ after')

/-- R148, R149: a TICK is issued only once attached, at a time that is `tick_due` modulo 2^32 and not
past the horizon; and no other transaction is taken at a time past a TICK that is due by the horizon.
The time of that TICK is read back from `tick_due` (log entry 8, DEDUCED). -/
def Obligations.TickPlacement : Prop :=
  ∀ (s s' : State) (a : Arrival), arbitrate s = some (a, s') →
    (a.source = .scheduler →
      s.attached = true ∧ BitVec.ofNat 32 a.time = s.tickDue ∧ a.time ≤ s.horizon ∧
      decode a.word = .ok .tick) ∧
    (s.attached = true → nextTickTime s ≤ s.horizon → a.time ≤ nextTickTime s)

/-- R66: a step never goes back in time nor past the horizon's items: what is left of a well-formed trace
is well-formed, and the parameters and the horizon stay. What well-formed asks beyond rising times
is log entry 5 (DEDUCED). -/
def Obligations.StepKeepsTheRunWellFormed : Prop :=
  ∀ s t : State, step s = .next t →
    s.time ≤ t.time ∧ t.traceOk = true ∧ t.horizon = s.horizon ∧ t.cfg = s.cfg

/-- When the machine takes no step. The trace is refused when it is not well-formed: its times decrease
(R66), or an item lies before the latest step or past the horizon (log entry 5, DEDUCED). There is no step
when nothing is left to come and no TICK is due by the horizon (the model's choice, log entry 4), the time of
the next TICK being read back from `tick_due` (log entry 8, DEDUCED). Otherwise every step completes. -/
def Obligations.StepStopsOnlyAtTheEndOfARun : Prop :=
  ∀ s : State,
    (s.traceOk = false → step s = .refused .traceIllFormed) ∧
    (s.traceOk = true → s.trace = [] → (s.attached = false ∨ s.horizon < nextTickTime s) →
      step s = .refused .noTransaction) ∧
    (s.traceOk = true → (s.trace ≠ [] ∨ (s.attached = true ∧ nextTickTime s ≤ s.horizon)) →
      ∃ t, step s = .next t)

/-- R209: a repeat and a due TICK of the same millisecond. Both orders are runs: with the TICK first the
button is released and the repeat then ignored; with the repeat first it stays held. -/
def Obligations.EqualTimeRaceOfTickAndRepeat : Prop :=
  ∀ (s : State) (d : Dur), s.attached = true → s.cfg = Config.hardware → s.held = true →
    s.time ≤ s.horizon → s.tickDue = s.now → after s.now s.repeatDeadline = true →
    2700 ≤ spaceSum s d → spaceSum s d < 12500 →
    s.trace = [{ time := s.time, port := .edge, word := encode (.space d) }] →
    (∃ ks t, runSteps 2 { s with picks := ks } =
        some (t, [record s.subTable .released (s.activeCommand.extractLsb' 0 8)]) ∧
      t.held = false ∧ t.repeatDeadline = s.repeatDeadline ∧ t.trace = []) ∧
    (∃ ks t, runSteps 2 { s with picks := ks } = some (t, []) ∧
      t.held = true ∧ t.repeatDeadline = s.now + 120#32 ∧ t.trace = [])

/-! ### Whole-machine rules -/

/-- R178, R35, R36, R22: once attached, the protocol and the source stay; the sticky flags stay set. -/
def Obligations.AttachmentAndStickyFlagsStay : Prop :=
  ∀ s t : State, step s = .next t →
    (s.attached = true → t.attached = true ∧ t.protocol = s.protocol ∧ t.srcSel = s.srcSel) ∧
    (s.faultIllegal = true → t.faultIllegal = true) ∧
    (s.subOverflow = true → t.subOverflow = true) ∧
    (t.faultIllegal = true → s.faultIllegal = true ∨ t.out.fault = some .illegalTransaction)

/-- R33, R54: a written slot is never rewritten or cleared, and `sub_count` never falls. -/
def Obligations.SubscriptionsAreNeverLost : Prop :=
  ∀ s t : State, RegistersOk s → step s = .next t →
    s.subCount.toNat ≤ t.subCount.toNat ∧
    (∀ i, i < s.subCount.toNat → t.subTable[i]? = s.subTable[i]?)

/-- R39: `command_bits` changes only in a SPACE whose incremented counter n satisfies 17 <= n <= 24. -/
def Obligations.CommandBitsChangeOnlyInTheirWindow : Prop :=
  ∀ (i : Instr) (s t : State), exec i s = .next t → t.commandBits ≠ s.commandBits →
    (∃ d, i = .space d) ∧ t.bitsReceived.toNat = s.bitsReceived.toNat + 1 ∧
    17 ≤ t.bitsReceived.toNat ∧ t.bitsReceived.toNat ≤ 24

/-- R29, R141: `has_unread_press` is set exactly by a step that emits Pressed, and cleared only by
WAS_PRESSED. -/
def Obligations.UnreadFlagFollowsPresses : Prop :=
  ∀ (i : Instr) (s t : State), exec i s = .next t →
    t.hasUnreadPress =
      (if i = .wasPressed then false
       else s.hasUnreadPress || t.out.events.any fun e => decide (e.kind = .pressed))

/-- The "written by" column of the register inventory (spec/10_state.md section 1): which instructions
change which register, and that none touches the run, the parameters or the model's own fields. -/
def Obligations.RegisterWriters : Prop :=
  ∀ (i : Instr) (s t : State), exec i s = .next t →
    (t.attached ≠ s.attached ∨ t.protocol ≠ s.protocol ∨ t.srcSel ≠ s.srcSel →
      (∃ p v, i = .attach p v) ∧ s.attached = false) ∧
    (t.markLatch ≠ s.markLatch → ∃ d, i = .mark d) ∧
    (t.bitsReceived ≠ s.bitsReceived ∨ t.commandBits ≠ s.commandBits ∨
      t.repeatDeadline ≠ s.repeatDeadline → ∃ d, i = .space d) ∧
    (t.lastCommand ≠ s.lastCommand →
      (∃ d, i = .space d) ∧ t.bitsReceived = 24#6 ∧ t.lastCommand = t.commandBits.setWidth 9) ∧
    (t.activeCommand ≠ s.activeCommand → (∃ d, i = .space d) ∨ i = .tick) ∧
    (t.tickDue ≠ s.tickDue → (∃ p v, i = .attach p v) ∧ s.attached = false ∨ i = .tick) ∧
    (t.subCount ≠ s.subCount ∨ t.subTable ≠ s.subTable ∨ t.subOverflow ≠ s.subOverflow →
      ∃ a h b, i = .subscribe a h b) ∧
    t.cfg = s.cfg ∧ t.time = s.time ∧ t.trace = s.trace ∧ t.horizon = s.horizon ∧
    t.picks = s.picks ∧ t.ties = s.ties

/-- R38, R154: over any number of steps, from any state, the events alternate as they must: each Pressed
finds nothing held, each Released names the held code, and what is left held is `active_command`. So no
code is pressed twice without a release between. -/
def Obligations.EventHistoryAgreesWithHeldCode : Prop :=
  ∀ (n : Nat) (s t : State) (evs : List EventRecord), isNoneOrWire s.activeCommand = true →
    runSteps n s = some (t, evs) → replay s.activeCommand evs = some t.activeCommand

/-! ### The accumulator over many bits -/

/-- R115, R117: for any sequence of bits and resyncs, under either protocol, the 6-bit saturating counter
and the 8-bit register complete the same commands as the source's unbounded counter and unmasked
register. -/
def Obligations.AccumulatorRefinesTheSource : Prop :=
  ∀ (xs : List (Option Bool)) (s : State),
    let r := SourceAccumulator.feedAll s.protocol xs
      { count := s.bitsReceived.toNat, bits := s.commandBits.toNat }
    ((feedAccumulator xs s).1.map fun o => o.map BitVec.toNat) = r.1 ∧
    (feedAccumulator xs s).2.bitsReceived.toNat = min 63 r.2.count ∧
    (feedAccumulator xs s).2.commandBits.toNat = r.2.bits % 256

/-- R119 (a), (b): without a resync the counter never falls and at most one command completes, from any
state and for any number of bits. -/
def Obligations.AtMostOneCommandBetweenResyncs : Prop :=
  ∀ (bs : List Bool) (s : State),
    completions (pushBits bs s).1 ≤ 1 ∧
    s.bitsReceived.toNat ≤ (pushBits bs s).2.bitsReceived.toNat

/-- R56, R115: under Standard, from a resync, any 16 bits and then the bits of a byte, bit 7 first,
complete that byte at the 24th bit and nothing before; `command_bits` as it was does not matter. -/
def Obligations.TwentyFourBitsCompleteTheCommand : Prop :=
  ∀ (s : State) (address : List Bool) (c : Code), s.protocol = .standard → s.bitsReceived = 0 →
    address.length = 16 →
    pushBits (address ++ msbFirst c) s =
      (List.replicate 23 none ++ [some c], { s with bitsReceived := 24, commandBits := c })

/-- R112, R119 (d): under AddressLenient, from a resync, a frame that has lost any number of the leading
zero bits of an all-zero address still completes its command. -/
def Obligations.LenientRecoversDroppedAddressBits : Prop :=
  ∀ (s : State) (zeros : Nat) (c : Code), s.protocol = .addressLenient → s.bitsReceived = 0 →
    zeros ≤ 8 →
    pushBits (List.replicate zeros false ++ List.replicate 8 true ++ msbFirst c) s =
      (List.replicate (zeros + 15) none ++ [some c], { s with bitsReceived := 24, commandBits := c })

/-- R89, R115, R116, R141, R142: one FRAME of any address and any command, from any attached state under
Standard, whatever was in progress: exactly one command is resolved, `c`, and the events are those of
one DEBOUNCE_CMD: none when c is held, else a release of what was held and a press of c. -/
def Obligations.FrameResolvesItsCommand : Prop :=
  ∀ (s : State) (a c : Code), s.attached = true → s.protocol = .standard →
    s.cfg = Config.hardware →
    ∃ t, runInstrs (frameInstrs a c) s =
        some (t,
          if s.activeCommand = c.setWidth 9 then []
          else (if s.activeCommand = 0x100#9 then []
              else [record s.subTable .released (s.activeCommand.extractLsb' 0 8)])
            ++ [record s.subTable .pressed c]) ∧
      t = { s with
        markLatch := 560
        bitsReceived := 32
        commandBits := c
        lastCommand := c.setWidth 9
        activeCommand := c.setWidth 9
        hasUnreadPress := s.hasUnreadPress || decide (s.activeCommand ≠ c.setWidth 9)
        repeatDeadline := BitVec.ofNat 32 s.time + 120
        out := Output.quiet }

/-! ### Hidden state -/

/-- R27, I7: what `command_bits` holds outside a byte in progress is never seen: two states that agree but
for it give the same output to every instruction and agree again. -/
def Obligations.StaleCommandBitsAreNeverSeen : Prop :=
  ∀ (i : Instr) (s s' : State), AgreeButCommandBits s s' →
    ∃ t t', exec i s = .next t ∧ exec i s' = .next t' ∧ t.out = t'.out ∧ AgreeButCommandBits t t'

/-- R31, I8: `repeat_deadline` is never seen while Idle: two states that agree but for it give the same
output to every instruction and agree again. -/
def Obligations.DeadlineIsUnobservableWhileIdle : Prop :=
  ∀ (i : Instr) (s s' : State), AgreeButIdleDeadline s s' →
    ∃ t t', exec i s = .next t ∧ exec i s' = .next t' ∧ t.out = t'.out ∧ AgreeButIdleDeadline t t'
end

