-- ==== Sys2Proof/Laws/Decode.lean ====
section
/-! SUPPORT. The transaction word as its three fields, and what the match and mask table of R83 says of
them: a row selects a word exactly when OP is its opcode and its reserved bits are 0. -/

namespace Sys2Proof

theorem append_eq_append_iff {n m : Nat} (x x' : BitVec n) (y y' : BitVec m) :
    x ++ y = x' ++ y' ↔ x = x' ∧ y = y' := by
  constructor
  · intro h
    have hl := congrArg (BitVec.extractLsb' m n) h
    have hr := congrArg (BitVec.setWidth m) h
    simp only [BitVec.extractLsb'_append_eq_left] at hl
    simp only [BitVec.setWidth_append_eq_right] at hr
    exact ⟨hl, hr⟩
  · rintro ⟨rfl, rfl⟩
    rfl

theorem mkWord_toNat (o u : BitVec 4) (a : BitVec 32) :
    (mkWord o u a).toNat = o.toNat * 2 ^ 36 + u.toNat * 2 ^ 32 + a.toNat := by
  have hu := u.isLt
  have ha := a.isLt
  simp only [mkWord, BitVec.toNat_append]
  rw [← Nat.shiftLeft_add_eq_or_of_lt hu, ← Nat.shiftLeft_add_eq_or_of_lt ha]
  simp only [Nat.shiftLeft_eq]
  omega

theorem mkWord_inj (o o' u u' : BitVec 4) (a a' : BitVec 32) :
    mkWord o u a = mkWord o' u' a' ↔ o = o' ∧ u = u' ∧ a = a' := by
  refine (append_eq_append_iff (o ++ u) (o' ++ u') a a').trans ?_
  rw [append_eq_append_iff o o' u u', and_assoc]

@[simp] theorem opField_mkWord (o u : BitVec 4) (a : BitVec 32) : opField (mkWord o u a) = o := by
  apply BitVec.eq_of_toNat_eq
  have ho := o.isLt; have hu := u.isLt; have ha := a.isLt
  simp only [opField, BitVec.extractLsb'_toNat, mkWord_toNat, Nat.shiftRight_eq_div_pow]
  omega

@[simp] theorem subField_mkWord (o u : BitVec 4) (a : BitVec 32) : subField (mkWord o u a) = u := by
  apply BitVec.eq_of_toNat_eq
  have ho := o.isLt; have hu := u.isLt; have ha := a.isLt
  simp only [subField, BitVec.extractLsb'_toNat, mkWord_toNat, Nat.shiftRight_eq_div_pow]
  omega

@[simp] theorem argField_mkWord (o u : BitVec 4) (a : BitVec 32) : argField (mkWord o u a) = a := by
  apply BitVec.eq_of_toNat_eq
  have ho := o.isLt; have hu := u.isLt; have ha := a.isLt
  simp only [argField, BitVec.extractLsb'_toNat, mkWord_toNat, Nat.shiftRight_eq_div_pow]
  omega

/-- A word is its three fields. -/
theorem mkWord_fields (w : TWord) : mkWord (opField w) (subField w) (argField w) = w := by
  apply BitVec.eq_of_toNat_eq
  have hw := w.isLt
  simp only [mkWord_toNat, opField, subField, argField, BitVec.extractLsb'_toNat,
    Nat.shiftRight_eq_div_pow]
  omega

theorem argLow_eq (w : TWord) : argLow w = (argField w).setWidth 8 := by
  apply BitVec.eq_of_toNat_eq
  simp [argLow, argField, BitVec.extractLsb'_toNat]

theorem argHandler_eq (w : TWord) : argHandler w = (argField w).extractLsb' 8 8 := by
  apply BitVec.eq_of_toNat_eq
  simp only [argHandler, argField, BitVec.extractLsb'_toNat, Nat.shiftRight_eq_div_pow]
  omega

theorem optionBit_eq (w : TWord) : optionBit w = (subField w).getLsbD 0 := by
  simp [optionBit, subField]

/-- The opcode of a row (R82). -/
def Op.opcode : Op → BitVec 4
  | .mark => 0x1
  | .space => 0x2
  | .tick => 0x3
  | .attach => 0x4
  | .subscribe => 0x5
  | .currentButton => 0x6
  | .wasPressed => 0x7
  | .buttonCode => 0x8
  | .readStatus => 0x9

/-- The reserved bits of SUB in a row (R81). -/
def Op.subReserved : Op → BitVec 4
  | .attach | .subscribe => 0xE
  | _ => 0xF

/-- The reserved bits of ARG in a row (R81). -/
def Op.argReserved : Op → BitVec 32
  | .mark | .space => 0
  | .attach | .buttonCode => 0xFFFFFF00
  | .subscribe => 0xFFFF0000
  | _ => 0xFFFFFFFF

theorem Op.mask_eq (op : Op) : op.mask = mkWord 0xF op.subReserved op.argReserved := by
  cases op <;> decide

theorem Op.pattern_eq (op : Op) : op.pattern = mkWord op.opcode 0 0 := by
  cases op <;> decide

theorem mkWord_and (o o' u u' : BitVec 4) (a a' : BitVec 32) :
    mkWord o u a &&& mkWord o' u' a' = mkWord (o &&& o') (u &&& u') (a &&& a') := by
  have h : ((o ++ u) ++ a) &&& ((o' ++ u') ++ a') = ((o &&& o') ++ (u &&& u')) ++ (a &&& a') := by
    rw [BitVec.and_append, BitVec.and_append]
  exact h

/-- A row selects a word exactly when OP is its opcode and its reserved bits are 0 (R81, R83). -/
theorem Op.selects_iff (op : Op) (w : TWord) :
    op.selects w = true ↔
      opField w = op.opcode ∧ subField w &&& op.subReserved = 0 ∧
        argField w &&& op.argReserved = 0 := by
  conv_lhs => rw [← mkWord_fields w]
  simp only [Op.selects, Op.mask_eq, Op.pattern_eq, mkWord_and, beq_iff_eq, mkWord_inj]
  have : opField w &&& 0xF#4 = opField w := by
    generalize opField w = o
    revert o
    decide
  rw [show (0xF : BitVec 4) = 0xF#4 from rfl, this]

theorem Op.opcode_inj : ∀ a b : Op, a.opcode = b.opcode → a = b := by
  intro a b
  cases a <;> cases b <;> decide

theorem Op.mem_all (op : Op) : op ∈ Op.all := by cases op <;> decide

/-- The row that selects a word is the one the decoder finds. -/
theorem find_selecting (op : Op) (w : TWord) (h : op.selects w = true) :
    Op.all.find? (·.selects w) = some op := by
  cases hf : Op.all.find? (·.selects w) with
  | none =>
    have := List.find?_eq_none.1 hf op op.mem_all
    simp [h] at this
  | some b =>
    have hb : b.selects w = true := by simpa using List.find?_some hf
    have hc : b.opcode = op.opcode :=
      ((Op.selects_iff b w).1 hb).1.symm.trans ((Op.selects_iff op w).1 h).1
    rw [Op.opcode_inj _ _ hc]

theorem decode_of_selects (op : Op) (w : TWord) (h : op.selects w = true) :
    decode w = .ok (op.build w) := by
  simp [decode, find_selecting op w h]

/-- Everything decoding can answer. -/
theorem decode_ok_iff (w : TWord) (i : Instr) :
    decode w = .ok i ↔ ∃ op : Op, op.selects w = true ∧ i = op.build w := by
  constructor
  · intro h
    simp only [decode] at h
    split at h
    next op hf =>
      refine ⟨op, by simpa using List.find?_some hf, ?_⟩
      simpa [eq_comm] using h
    next => simp at h
  · rintro ⟨op, h, rfl⟩
    exact decode_of_selects op w h

/-- Reserved bits 8 to 31 of ARG are 0 exactly when ARG is below 2^8. -/
theorem and_high24 (a : BitVec 32) : a &&& 0xFFFFFF00#32 = 0 ↔ a.toNat < 2 ^ 8 := by
  have hsplit : a = a.extractLsb' 8 24 ++ a.setWidth 8 := by
    apply BitVec.eq_of_toNat_eq
    have ha := a.isLt
    rw [BitVec.toNat_append, ← Nat.shiftLeft_add_eq_or_of_lt (BitVec.isLt _)]
    simp only [BitVec.extractLsb'_toNat, BitVec.toNat_setWidth, Nat.shiftLeft_eq,
      Nat.shiftRight_eq_div_pow]
    omega
  have hmask : (0xFFFFFF00#32 : BitVec 32) = (0xFFFFFF#24 ++ 0#8 : BitVec 32) := by decide
  have hzero : (0 : BitVec 32) = (0#24 ++ 0#8 : BitVec 32) := by decide
  have hand : a &&& 0xFFFFFF00#32 = (a.extractLsb' 8 24 &&& BitVec.allOnes 24) ++ (0#8 : BitVec 8) := by
    conv_lhs => rw [hsplit, hmask]
    refine (BitVec.and_append ..).trans ?_
    rw [BitVec.and_zero]
    rfl
  rw [hand, BitVec.and_allOnes, hzero, append_eq_append_iff]
  have ha := a.isLt
  constructor
  · rintro ⟨h, -⟩
    have := congrArg BitVec.toNat h
    simp only [BitVec.extractLsb'_toNat, Nat.shiftRight_eq_div_pow, BitVec.toNat_ofNat] at this
    omega
  · intro h
    refine ⟨?_, rfl⟩
    apply BitVec.eq_of_toNat_eq
    simp only [BitVec.extractLsb'_toNat, Nat.shiftRight_eq_div_pow, BitVec.toNat_ofNat]
    omega

/-- Reserved bits 16 to 31 of ARG are 0 exactly when ARG is below 2^16. -/
theorem and_high16 (a : BitVec 32) : a &&& 0xFFFF0000#32 = 0 ↔ a.toNat < 2 ^ 16 := by
  have hsplit : a = a.extractLsb' 16 16 ++ a.setWidth 16 := by
    apply BitVec.eq_of_toNat_eq
    have ha := a.isLt
    rw [BitVec.toNat_append, ← Nat.shiftLeft_add_eq_or_of_lt (BitVec.isLt _)]
    simp only [BitVec.extractLsb'_toNat, BitVec.toNat_setWidth, Nat.shiftLeft_eq,
      Nat.shiftRight_eq_div_pow]
    omega
  have hmask : (0xFFFF0000#32 : BitVec 32) = (0xFFFF#16 ++ 0#16 : BitVec 32) := by decide
  have hzero : (0 : BitVec 32) = (0#16 ++ 0#16 : BitVec 32) := by decide
  have hand : a &&& 0xFFFF0000#32 = (a.extractLsb' 16 16 &&& BitVec.allOnes 16) ++ (0#16 : BitVec 16) := by
    conv_lhs => rw [hsplit, hmask]
    refine (BitVec.and_append ..).trans ?_
    rw [BitVec.and_zero]
    rfl
  rw [hand, BitVec.and_allOnes, hzero, append_eq_append_iff]
  have ha := a.isLt
  constructor
  · rintro ⟨h, -⟩
    have := congrArg BitVec.toNat h
    simp only [BitVec.extractLsb'_toNat, Nat.shiftRight_eq_div_pow, BitVec.toNat_ofNat] at this
    omega
  · intro h
    refine ⟨?_, rfl⟩
    apply BitVec.eq_of_toNat_eq
    simp only [BitVec.extractLsb'_toNat, Nat.shiftRight_eq_div_pow, BitVec.toNat_ofNat]
    omega

/-- Reserved bits 1 to 3 of SUB are 0 exactly when SUB is 0 or 1. -/
theorem and_sub3 (u : BitVec 4) : u &&& 0xE#4 = 0 ↔ u.toNat < 2 := by
  revert u
  decide

end Sys2Proof
end

