-- ==== Sys2Proof/Laws/State.lean ====
section
/-! SUPPORT. What each named update of the state leaves in each field, so that no proof unfolds a record
update. -/

namespace Sys2Proof.Machine

@[simp] theorem State.quiet_attached (s : State) : s.quiet.attached = s.attached := rfl
@[simp] theorem State.quiet_protocol (s : State) : s.quiet.protocol = s.protocol := rfl
@[simp] theorem State.quiet_srcSel (s : State) : s.quiet.srcSel = s.srcSel := rfl
@[simp] theorem State.quiet_markLatch (s : State) : s.quiet.markLatch = s.markLatch := rfl
@[simp] theorem State.quiet_bitsReceived (s : State) : s.quiet.bitsReceived = s.bitsReceived := rfl
@[simp] theorem State.quiet_commandBits (s : State) : s.quiet.commandBits = s.commandBits := rfl
@[simp] theorem State.quiet_lastCommand (s : State) : s.quiet.lastCommand = s.lastCommand := rfl
@[simp] theorem State.quiet_hasUnreadPress (s : State) : s.quiet.hasUnreadPress = s.hasUnreadPress := rfl
@[simp] theorem State.quiet_activeCommand (s : State) : s.quiet.activeCommand = s.activeCommand := rfl
@[simp] theorem State.quiet_repeatDeadline (s : State) : s.quiet.repeatDeadline = s.repeatDeadline := rfl
@[simp] theorem State.quiet_tickDue (s : State) : s.quiet.tickDue = s.tickDue := rfl
@[simp] theorem State.quiet_subCount (s : State) : s.quiet.subCount = s.subCount := rfl
@[simp] theorem State.quiet_subTable (s : State) : s.quiet.subTable = s.subTable := rfl
@[simp] theorem State.quiet_faultIllegal (s : State) : s.quiet.faultIllegal = s.faultIllegal := rfl
@[simp] theorem State.quiet_subOverflow (s : State) : s.quiet.subOverflow = s.subOverflow := rfl
@[simp] theorem State.quiet_cfg (s : State) : s.quiet.cfg = s.cfg := rfl
@[simp] theorem State.quiet_time (s : State) : s.quiet.time = s.time := rfl
@[simp] theorem State.quiet_trace (s : State) : s.quiet.trace = s.trace := rfl
@[simp] theorem State.quiet_horizon (s : State) : s.quiet.horizon = s.horizon := rfl
@[simp] theorem State.quiet_picks (s : State) : s.quiet.picks = s.picks := rfl
@[simp] theorem State.quiet_ties (s : State) : s.quiet.ties = s.ties := rfl
@[simp] theorem State.quiet_out (s : State) : s.quiet.out = Output.quiet := rfl

@[simp] theorem State.respond_attached (v : Resp) (s : State) : (s.respond v).attached = s.attached := rfl
@[simp] theorem State.respond_protocol (v : Resp) (s : State) : (s.respond v).protocol = s.protocol := rfl
@[simp] theorem State.respond_srcSel (v : Resp) (s : State) : (s.respond v).srcSel = s.srcSel := rfl
@[simp] theorem State.respond_markLatch (v : Resp) (s : State) : (s.respond v).markLatch = s.markLatch := rfl
@[simp] theorem State.respond_bitsReceived (v : Resp) (s : State) : (s.respond v).bitsReceived = s.bitsReceived := rfl
@[simp] theorem State.respond_commandBits (v : Resp) (s : State) : (s.respond v).commandBits = s.commandBits := rfl
@[simp] theorem State.respond_lastCommand (v : Resp) (s : State) : (s.respond v).lastCommand = s.lastCommand := rfl
@[simp] theorem State.respond_hasUnreadPress (v : Resp) (s : State) : (s.respond v).hasUnreadPress = s.hasUnreadPress := rfl
@[simp] theorem State.respond_activeCommand (v : Resp) (s : State) : (s.respond v).activeCommand = s.activeCommand := rfl
@[simp] theorem State.respond_repeatDeadline (v : Resp) (s : State) : (s.respond v).repeatDeadline = s.repeatDeadline := rfl
@[simp] theorem State.respond_tickDue (v : Resp) (s : State) : (s.respond v).tickDue = s.tickDue := rfl
@[simp] theorem State.respond_subCount (v : Resp) (s : State) : (s.respond v).subCount = s.subCount := rfl
@[simp] theorem State.respond_subTable (v : Resp) (s : State) : (s.respond v).subTable = s.subTable := rfl
@[simp] theorem State.respond_faultIllegal (v : Resp) (s : State) : (s.respond v).faultIllegal = s.faultIllegal := rfl
@[simp] theorem State.respond_subOverflow (v : Resp) (s : State) : (s.respond v).subOverflow = s.subOverflow := rfl
@[simp] theorem State.respond_cfg (v : Resp) (s : State) : (s.respond v).cfg = s.cfg := rfl
@[simp] theorem State.respond_time (v : Resp) (s : State) : (s.respond v).time = s.time := rfl
@[simp] theorem State.respond_trace (v : Resp) (s : State) : (s.respond v).trace = s.trace := rfl
@[simp] theorem State.respond_horizon (v : Resp) (s : State) : (s.respond v).horizon = s.horizon := rfl
@[simp] theorem State.respond_picks (v : Resp) (s : State) : (s.respond v).picks = s.picks := rfl
@[simp] theorem State.respond_ties (v : Resp) (s : State) : (s.respond v).ties = s.ties := rfl
@[simp] theorem State.respond_out (v : Resp) (s : State) : (s.respond v).out = { s.out with response := some v } := rfl

@[simp] theorem State.emit_attached (k : EventKind) (c : Code) (s : State) : (s.emit k c).attached = s.attached := rfl
@[simp] theorem State.emit_protocol (k : EventKind) (c : Code) (s : State) : (s.emit k c).protocol = s.protocol := rfl
@[simp] theorem State.emit_srcSel (k : EventKind) (c : Code) (s : State) : (s.emit k c).srcSel = s.srcSel := rfl
@[simp] theorem State.emit_markLatch (k : EventKind) (c : Code) (s : State) : (s.emit k c).markLatch = s.markLatch := rfl
@[simp] theorem State.emit_bitsReceived (k : EventKind) (c : Code) (s : State) : (s.emit k c).bitsReceived = s.bitsReceived := rfl
@[simp] theorem State.emit_commandBits (k : EventKind) (c : Code) (s : State) : (s.emit k c).commandBits = s.commandBits := rfl
@[simp] theorem State.emit_lastCommand (k : EventKind) (c : Code) (s : State) : (s.emit k c).lastCommand = s.lastCommand := rfl
@[simp] theorem State.emit_hasUnreadPress (k : EventKind) (c : Code) (s : State) : (s.emit k c).hasUnreadPress = s.hasUnreadPress := rfl
@[simp] theorem State.emit_activeCommand (k : EventKind) (c : Code) (s : State) : (s.emit k c).activeCommand = s.activeCommand := rfl
@[simp] theorem State.emit_repeatDeadline (k : EventKind) (c : Code) (s : State) : (s.emit k c).repeatDeadline = s.repeatDeadline := rfl
@[simp] theorem State.emit_tickDue (k : EventKind) (c : Code) (s : State) : (s.emit k c).tickDue = s.tickDue := rfl
@[simp] theorem State.emit_subCount (k : EventKind) (c : Code) (s : State) : (s.emit k c).subCount = s.subCount := rfl
@[simp] theorem State.emit_subTable (k : EventKind) (c : Code) (s : State) : (s.emit k c).subTable = s.subTable := rfl
@[simp] theorem State.emit_faultIllegal (k : EventKind) (c : Code) (s : State) : (s.emit k c).faultIllegal = s.faultIllegal := rfl
@[simp] theorem State.emit_subOverflow (k : EventKind) (c : Code) (s : State) : (s.emit k c).subOverflow = s.subOverflow := rfl
@[simp] theorem State.emit_cfg (k : EventKind) (c : Code) (s : State) : (s.emit k c).cfg = s.cfg := rfl
@[simp] theorem State.emit_time (k : EventKind) (c : Code) (s : State) : (s.emit k c).time = s.time := rfl
@[simp] theorem State.emit_trace (k : EventKind) (c : Code) (s : State) : (s.emit k c).trace = s.trace := rfl
@[simp] theorem State.emit_horizon (k : EventKind) (c : Code) (s : State) : (s.emit k c).horizon = s.horizon := rfl
@[simp] theorem State.emit_picks (k : EventKind) (c : Code) (s : State) : (s.emit k c).picks = s.picks := rfl
@[simp] theorem State.emit_ties (k : EventKind) (c : Code) (s : State) : (s.emit k c).ties = s.ties := rfl
@[simp] theorem State.emit_out (k : EventKind) (c : Code) (s : State) : (s.emit k c).out = { s.out with
      events := s.out.events ++ [{ kind := k, code := c, matched := matchBits s.subTable k c }] } := rfl

@[simp] theorem State.raiseIllegal_attached (src : Source) (s : State) : (s.raiseIllegal src).attached = s.attached := rfl
@[simp] theorem State.raiseIllegal_protocol (src : Source) (s : State) : (s.raiseIllegal src).protocol = s.protocol := rfl
@[simp] theorem State.raiseIllegal_srcSel (src : Source) (s : State) : (s.raiseIllegal src).srcSel = s.srcSel := rfl
@[simp] theorem State.raiseIllegal_markLatch (src : Source) (s : State) : (s.raiseIllegal src).markLatch = s.markLatch := rfl
@[simp] theorem State.raiseIllegal_bitsReceived (src : Source) (s : State) : (s.raiseIllegal src).bitsReceived = s.bitsReceived := rfl
@[simp] theorem State.raiseIllegal_commandBits (src : Source) (s : State) : (s.raiseIllegal src).commandBits = s.commandBits := rfl
@[simp] theorem State.raiseIllegal_lastCommand (src : Source) (s : State) : (s.raiseIllegal src).lastCommand = s.lastCommand := rfl
@[simp] theorem State.raiseIllegal_hasUnreadPress (src : Source) (s : State) : (s.raiseIllegal src).hasUnreadPress = s.hasUnreadPress := rfl
@[simp] theorem State.raiseIllegal_activeCommand (src : Source) (s : State) : (s.raiseIllegal src).activeCommand = s.activeCommand := rfl
@[simp] theorem State.raiseIllegal_repeatDeadline (src : Source) (s : State) : (s.raiseIllegal src).repeatDeadline = s.repeatDeadline := rfl
@[simp] theorem State.raiseIllegal_tickDue (src : Source) (s : State) : (s.raiseIllegal src).tickDue = s.tickDue := rfl
@[simp] theorem State.raiseIllegal_subCount (src : Source) (s : State) : (s.raiseIllegal src).subCount = s.subCount := rfl
@[simp] theorem State.raiseIllegal_subTable (src : Source) (s : State) : (s.raiseIllegal src).subTable = s.subTable := rfl
@[simp] theorem State.raiseIllegal_faultIllegal (src : Source) (s : State) : (s.raiseIllegal src).faultIllegal = true := rfl
@[simp] theorem State.raiseIllegal_subOverflow (src : Source) (s : State) : (s.raiseIllegal src).subOverflow = s.subOverflow := rfl
@[simp] theorem State.raiseIllegal_cfg (src : Source) (s : State) : (s.raiseIllegal src).cfg = s.cfg := rfl
@[simp] theorem State.raiseIllegal_time (src : Source) (s : State) : (s.raiseIllegal src).time = s.time := rfl
@[simp] theorem State.raiseIllegal_trace (src : Source) (s : State) : (s.raiseIllegal src).trace = s.trace := rfl
@[simp] theorem State.raiseIllegal_horizon (src : Source) (s : State) : (s.raiseIllegal src).horizon = s.horizon := rfl
@[simp] theorem State.raiseIllegal_picks (src : Source) (s : State) : (s.raiseIllegal src).picks = s.picks := rfl
@[simp] theorem State.raiseIllegal_ties (src : Source) (s : State) : (s.raiseIllegal src).ties = s.ties := rfl
@[simp] theorem State.raiseIllegal_out (src : Source) (s : State) : (s.raiseIllegal src).out = {
      events := []
      response := if src = .host then some 0 else none
      fault := some .illegalTransaction } := rfl

@[simp] theorem State.refresh_attached (s : State) : s.refresh.attached = s.attached := rfl
@[simp] theorem State.refresh_protocol (s : State) : s.refresh.protocol = s.protocol := rfl
@[simp] theorem State.refresh_srcSel (s : State) : s.refresh.srcSel = s.srcSel := rfl
@[simp] theorem State.refresh_markLatch (s : State) : s.refresh.markLatch = s.markLatch := rfl
@[simp] theorem State.refresh_bitsReceived (s : State) : s.refresh.bitsReceived = s.bitsReceived := rfl
@[simp] theorem State.refresh_commandBits (s : State) : s.refresh.commandBits = s.commandBits := rfl
@[simp] theorem State.refresh_lastCommand (s : State) : s.refresh.lastCommand = s.lastCommand := rfl
@[simp] theorem State.refresh_hasUnreadPress (s : State) : s.refresh.hasUnreadPress = s.hasUnreadPress := rfl
@[simp] theorem State.refresh_activeCommand (s : State) : s.refresh.activeCommand = s.activeCommand := rfl
@[simp] theorem State.refresh_repeatDeadline (s : State) : s.refresh.repeatDeadline = s.now + s.cfg.repeatWindowMs := rfl
@[simp] theorem State.refresh_tickDue (s : State) : s.refresh.tickDue = s.tickDue := rfl
@[simp] theorem State.refresh_subCount (s : State) : s.refresh.subCount = s.subCount := rfl
@[simp] theorem State.refresh_subTable (s : State) : s.refresh.subTable = s.subTable := rfl
@[simp] theorem State.refresh_faultIllegal (s : State) : s.refresh.faultIllegal = s.faultIllegal := rfl
@[simp] theorem State.refresh_subOverflow (s : State) : s.refresh.subOverflow = s.subOverflow := rfl
@[simp] theorem State.refresh_cfg (s : State) : s.refresh.cfg = s.cfg := rfl
@[simp] theorem State.refresh_time (s : State) : s.refresh.time = s.time := rfl
@[simp] theorem State.refresh_trace (s : State) : s.refresh.trace = s.trace := rfl
@[simp] theorem State.refresh_horizon (s : State) : s.refresh.horizon = s.horizon := rfl
@[simp] theorem State.refresh_picks (s : State) : s.refresh.picks = s.picks := rfl
@[simp] theorem State.refresh_ties (s : State) : s.refresh.ties = s.ties := rfl
@[simp] theorem State.refresh_out (s : State) : s.refresh.out = s.out := rfl

@[simp] theorem State.setUnread_attached (s : State) : s.setUnread.attached = s.attached := rfl
@[simp] theorem State.setUnread_protocol (s : State) : s.setUnread.protocol = s.protocol := rfl
@[simp] theorem State.setUnread_srcSel (s : State) : s.setUnread.srcSel = s.srcSel := rfl
@[simp] theorem State.setUnread_markLatch (s : State) : s.setUnread.markLatch = s.markLatch := rfl
@[simp] theorem State.setUnread_bitsReceived (s : State) : s.setUnread.bitsReceived = s.bitsReceived := rfl
@[simp] theorem State.setUnread_commandBits (s : State) : s.setUnread.commandBits = s.commandBits := rfl
@[simp] theorem State.setUnread_lastCommand (s : State) : s.setUnread.lastCommand = s.lastCommand := rfl
@[simp] theorem State.setUnread_hasUnreadPress (s : State) : s.setUnread.hasUnreadPress = true := rfl
@[simp] theorem State.setUnread_activeCommand (s : State) : s.setUnread.activeCommand = s.activeCommand := rfl
@[simp] theorem State.setUnread_repeatDeadline (s : State) : s.setUnread.repeatDeadline = s.repeatDeadline := rfl
@[simp] theorem State.setUnread_tickDue (s : State) : s.setUnread.tickDue = s.tickDue := rfl
@[simp] theorem State.setUnread_subCount (s : State) : s.setUnread.subCount = s.subCount := rfl
@[simp] theorem State.setUnread_subTable (s : State) : s.setUnread.subTable = s.subTable := rfl
@[simp] theorem State.setUnread_faultIllegal (s : State) : s.setUnread.faultIllegal = s.faultIllegal := rfl
@[simp] theorem State.setUnread_subOverflow (s : State) : s.setUnread.subOverflow = s.subOverflow := rfl
@[simp] theorem State.setUnread_cfg (s : State) : s.setUnread.cfg = s.cfg := rfl
@[simp] theorem State.setUnread_time (s : State) : s.setUnread.time = s.time := rfl
@[simp] theorem State.setUnread_trace (s : State) : s.setUnread.trace = s.trace := rfl
@[simp] theorem State.setUnread_horizon (s : State) : s.setUnread.horizon = s.horizon := rfl
@[simp] theorem State.setUnread_picks (s : State) : s.setUnread.picks = s.picks := rfl
@[simp] theorem State.setUnread_ties (s : State) : s.setUnread.ties = s.ties := rfl
@[simp] theorem State.setUnread_out (s : State) : s.setUnread.out = s.out := rfl

@[simp] theorem State.clearUnread_attached (s : State) : s.clearUnread.attached = s.attached := rfl
@[simp] theorem State.clearUnread_protocol (s : State) : s.clearUnread.protocol = s.protocol := rfl
@[simp] theorem State.clearUnread_srcSel (s : State) : s.clearUnread.srcSel = s.srcSel := rfl
@[simp] theorem State.clearUnread_markLatch (s : State) : s.clearUnread.markLatch = s.markLatch := rfl
@[simp] theorem State.clearUnread_bitsReceived (s : State) : s.clearUnread.bitsReceived = s.bitsReceived := rfl
@[simp] theorem State.clearUnread_commandBits (s : State) : s.clearUnread.commandBits = s.commandBits := rfl
@[simp] theorem State.clearUnread_lastCommand (s : State) : s.clearUnread.lastCommand = s.lastCommand := rfl
@[simp] theorem State.clearUnread_hasUnreadPress (s : State) : s.clearUnread.hasUnreadPress = false := rfl
@[simp] theorem State.clearUnread_activeCommand (s : State) : s.clearUnread.activeCommand = s.activeCommand := rfl
@[simp] theorem State.clearUnread_repeatDeadline (s : State) : s.clearUnread.repeatDeadline = s.repeatDeadline := rfl
@[simp] theorem State.clearUnread_tickDue (s : State) : s.clearUnread.tickDue = s.tickDue := rfl
@[simp] theorem State.clearUnread_subCount (s : State) : s.clearUnread.subCount = s.subCount := rfl
@[simp] theorem State.clearUnread_subTable (s : State) : s.clearUnread.subTable = s.subTable := rfl
@[simp] theorem State.clearUnread_faultIllegal (s : State) : s.clearUnread.faultIllegal = s.faultIllegal := rfl
@[simp] theorem State.clearUnread_subOverflow (s : State) : s.clearUnread.subOverflow = s.subOverflow := rfl
@[simp] theorem State.clearUnread_cfg (s : State) : s.clearUnread.cfg = s.cfg := rfl
@[simp] theorem State.clearUnread_time (s : State) : s.clearUnread.time = s.time := rfl
@[simp] theorem State.clearUnread_trace (s : State) : s.clearUnread.trace = s.trace := rfl
@[simp] theorem State.clearUnread_horizon (s : State) : s.clearUnread.horizon = s.horizon := rfl
@[simp] theorem State.clearUnread_picks (s : State) : s.clearUnread.picks = s.picks := rfl
@[simp] theorem State.clearUnread_ties (s : State) : s.clearUnread.ties = s.ties := rfl
@[simp] theorem State.clearUnread_out (s : State) : s.clearUnread.out = s.out := rfl

@[simp] theorem State.setOverflow_attached (s : State) : s.setOverflow.attached = s.attached := rfl
@[simp] theorem State.setOverflow_protocol (s : State) : s.setOverflow.protocol = s.protocol := rfl
@[simp] theorem State.setOverflow_srcSel (s : State) : s.setOverflow.srcSel = s.srcSel := rfl
@[simp] theorem State.setOverflow_markLatch (s : State) : s.setOverflow.markLatch = s.markLatch := rfl
@[simp] theorem State.setOverflow_bitsReceived (s : State) : s.setOverflow.bitsReceived = s.bitsReceived := rfl
@[simp] theorem State.setOverflow_commandBits (s : State) : s.setOverflow.commandBits = s.commandBits := rfl
@[simp] theorem State.setOverflow_lastCommand (s : State) : s.setOverflow.lastCommand = s.lastCommand := rfl
@[simp] theorem State.setOverflow_hasUnreadPress (s : State) : s.setOverflow.hasUnreadPress = s.hasUnreadPress := rfl
@[simp] theorem State.setOverflow_activeCommand (s : State) : s.setOverflow.activeCommand = s.activeCommand := rfl
@[simp] theorem State.setOverflow_repeatDeadline (s : State) : s.setOverflow.repeatDeadline = s.repeatDeadline := rfl
@[simp] theorem State.setOverflow_tickDue (s : State) : s.setOverflow.tickDue = s.tickDue := rfl
@[simp] theorem State.setOverflow_subCount (s : State) : s.setOverflow.subCount = s.subCount := rfl
@[simp] theorem State.setOverflow_subTable (s : State) : s.setOverflow.subTable = s.subTable := rfl
@[simp] theorem State.setOverflow_faultIllegal (s : State) : s.setOverflow.faultIllegal = s.faultIllegal := rfl
@[simp] theorem State.setOverflow_subOverflow (s : State) : s.setOverflow.subOverflow = true := rfl
@[simp] theorem State.setOverflow_cfg (s : State) : s.setOverflow.cfg = s.cfg := rfl
@[simp] theorem State.setOverflow_time (s : State) : s.setOverflow.time = s.time := rfl
@[simp] theorem State.setOverflow_trace (s : State) : s.setOverflow.trace = s.trace := rfl
@[simp] theorem State.setOverflow_horizon (s : State) : s.setOverflow.horizon = s.horizon := rfl
@[simp] theorem State.setOverflow_picks (s : State) : s.setOverflow.picks = s.picks := rfl
@[simp] theorem State.setOverflow_ties (s : State) : s.setOverflow.ties = s.ties := rfl
@[simp] theorem State.setOverflow_out (s : State) : s.setOverflow.out = s.out := rfl

@[simp] theorem State.store_attached (e : SubEntry) (s : State) : (s.store e).attached = s.attached := rfl
@[simp] theorem State.store_protocol (e : SubEntry) (s : State) : (s.store e).protocol = s.protocol := rfl
@[simp] theorem State.store_srcSel (e : SubEntry) (s : State) : (s.store e).srcSel = s.srcSel := rfl
@[simp] theorem State.store_markLatch (e : SubEntry) (s : State) : (s.store e).markLatch = s.markLatch := rfl
@[simp] theorem State.store_bitsReceived (e : SubEntry) (s : State) : (s.store e).bitsReceived = s.bitsReceived := rfl
@[simp] theorem State.store_commandBits (e : SubEntry) (s : State) : (s.store e).commandBits = s.commandBits := rfl
@[simp] theorem State.store_lastCommand (e : SubEntry) (s : State) : (s.store e).lastCommand = s.lastCommand := rfl
@[simp] theorem State.store_hasUnreadPress (e : SubEntry) (s : State) : (s.store e).hasUnreadPress = s.hasUnreadPress := rfl
@[simp] theorem State.store_activeCommand (e : SubEntry) (s : State) : (s.store e).activeCommand = s.activeCommand := rfl
@[simp] theorem State.store_repeatDeadline (e : SubEntry) (s : State) : (s.store e).repeatDeadline = s.repeatDeadline := rfl
@[simp] theorem State.store_tickDue (e : SubEntry) (s : State) : (s.store e).tickDue = s.tickDue := rfl
@[simp] theorem State.store_subCount (e : SubEntry) (s : State) : (s.store e).subCount = s.subCount + 1 := rfl
@[simp] theorem State.store_subTable (e : SubEntry) (s : State) : (s.store e).subTable = s.subTable.set s.subCount.toNat e := rfl
@[simp] theorem State.store_faultIllegal (e : SubEntry) (s : State) : (s.store e).faultIllegal = s.faultIllegal := rfl
@[simp] theorem State.store_subOverflow (e : SubEntry) (s : State) : (s.store e).subOverflow = s.subOverflow := rfl
@[simp] theorem State.store_cfg (e : SubEntry) (s : State) : (s.store e).cfg = s.cfg := rfl
@[simp] theorem State.store_time (e : SubEntry) (s : State) : (s.store e).time = s.time := rfl
@[simp] theorem State.store_trace (e : SubEntry) (s : State) : (s.store e).trace = s.trace := rfl
@[simp] theorem State.store_horizon (e : SubEntry) (s : State) : (s.store e).horizon = s.horizon := rfl
@[simp] theorem State.store_picks (e : SubEntry) (s : State) : (s.store e).picks = s.picks := rfl
@[simp] theorem State.store_ties (e : SubEntry) (s : State) : (s.store e).ties = s.ties := rfl
@[simp] theorem State.store_out (e : SubEntry) (s : State) : (s.store e).out = s.out := rfl

@[simp] theorem State.quiet_now (s : State) : s.quiet.now = s.now := rfl
@[simp] theorem State.quiet_held (s : State) : s.quiet.held = s.held := rfl

end Sys2Proof.Machine
end

