-- ==== Sys2Proof/Laws/Ops.lean ====
section
/-! SUPPORT. What each shared operation can do, said once: the classifier and the accumulator, the
engine, the tick, and the instructions as a whole. -/

namespace Sys2Proof.Machine

open Host (Outcome)

theorem combinedDuration_toNat (m d : Dur) :
    (combinedDuration m d).toNat = m.toNat + d.toNat := by
  have hm := m.isLt
  have hd := d.isLt
  simp only [combinedDuration, BitVec.toNat_add, BitVec.toNat_setWidth]
  omega

theorem Config.wf_thresholds {cfg : Config} (h : cfg.wf = true) :
    0 < cfg.tBit1 ∧ cfg.tBit1 < cfg.tRepeat ∧ cfg.tRepeat < cfg.tStart ∧ cfg.tStart < cfg.tNoise := by
  simp only [Config.wf, Bool.and_eq_true, decide_eq_true_eq] at h
  omega

theorem Config.wf_slots {cfg : Config} (h : cfg.wf = true) :
    1 ≤ cfg.subSlots ∧ cfg.subSlots ≤ 255 := by
  simp only [Config.wf, Bool.and_eq_true, decide_eq_true_eq] at h
  omega

theorem classify_bit {cfg : Config} {d : CombinedDur} (h : d.toNat < cfg.tRepeat) :
    classify cfg d = if cfg.tBit1 ≤ d.toNat then .bit1 else .bit0 := by
  unfold classify
  by_cases h1 : d.toNat < cfg.tBit1
  · rw [if_pos h1, if_neg (by omega)]
  · rw [if_neg h1, if_pos h, if_pos (by omega)]

theorem classify_repeat {cfg : Config} {d : CombinedDur} (hw : cfg.wf = true)
    (h1 : cfg.tRepeat ≤ d.toNat) (h2 : d.toNat < cfg.tStart) : classify cfg d = .repeatSym := by
  have := Config.wf_thresholds hw
  unfold classify
  rw [if_neg (by omega), if_neg (by omega), if_pos h2]

theorem classify_long {cfg : Config} {d : CombinedDur} (hw : cfg.wf = true)
    (h : cfg.tStart ≤ d.toNat) : classify cfg d = .frameStart ∨ classify cfg d = .incomplete := by
  have := Config.wf_thresholds hw
  unfold classify
  rw [if_neg (by omega), if_neg (by omega), if_neg (by omega)]
  split
  · exact .inl rfl
  · exact .inr rfl

theorem nextCount_toNat (k : BitVec 6) : (nextCount k).toNat = min 63 (k.toNat + 1) := by
  revert k
  decide

theorem shiftIn_eq (cb : Code) (b : Bool) :
    shiftIn cb b = cb * 2 + (if b then 1 else 0) := by
  revert cb b
  decide

theorem shiftIn_toNat (cb : Code) (b : Bool) :
    (shiftIn cb b).toNat = (cb.toNat * 2 + b.toNat) % 256 := by
  revert cb b
  decide

/-- PUSH_BIT by window: what it returns and what it leaves (R111 to R117). -/
theorem pushBit_cases (b : Bool) (s : State) :
    (s.bitsReceived.toNat + 1 ≤ 8 ∧ pushBit b s =
      (none, { s with bitsReceived :=
        if s.protocol = .addressLenient ∧ b = true then 9#6 else nextCount s.bitsReceived })) ∨
    (9 ≤ s.bitsReceived.toNat + 1 ∧ s.bitsReceived.toNat + 1 ≤ 16 ∧
      pushBit b s = (none, { s with bitsReceived := nextCount s.bitsReceived })) ∨
    (17 ≤ s.bitsReceived.toNat + 1 ∧ s.bitsReceived.toNat + 1 ≤ 23 ∧
      pushBit b s = (none, { s with
        commandBits := shiftIn s.commandBits b, bitsReceived := nextCount s.bitsReceived })) ∨
    (s.bitsReceived = 23#6 ∧
      pushBit b s = (some (shiftIn s.commandBits b), { s with
        commandBits := shiftIn s.commandBits b, bitsReceived := 24#6 })) ∨
    (24 < s.bitsReceived.toNat + 1 ∧
      pushBit b s = (none, { s with bitsReceived := nextCount s.bitsReceived })) := by
  have hn := nextCount_toNat s.bitsReceived
  have hk := s.bitsReceived.isLt
  generalize hm : nextCount s.bitsReceived = n at hn ⊢
  have hp : pushBit b s =
      if n.toNat ≤ 8 then (none, { s with bitsReceived := addressCount s.protocol b n })
      else if n.toNat ≤ 16 then (none, { s with bitsReceived := n })
      else if n.toNat < 24 then
        (none, { s with commandBits := shiftIn s.commandBits b, bitsReceived := n })
      else if n.toNat = 24 then
        (some (shiftIn s.commandBits b),
          { s with commandBits := shiftIn s.commandBits b, bitsReceived := n })
      else (none, { s with bitsReceived := n }) := by
    subst hm; rfl
  rw [hp]
  by_cases h1 : s.bitsReceived.toNat + 1 ≤ 8
  · exact .inl ⟨h1, by rw [if_pos (by omega)]; rfl⟩
  by_cases h2 : s.bitsReceived.toNat + 1 ≤ 16
  · exact .inr (.inl ⟨by omega, h2, by rw [if_neg (by omega), if_pos (by omega)]⟩)
  by_cases h3 : s.bitsReceived.toNat + 1 ≤ 23
  · refine .inr (.inr (.inl ⟨by omega, h3, ?_⟩))
    rw [if_neg (by omega), if_neg (by omega), if_pos (by omega)]
  by_cases h4 : s.bitsReceived.toNat = 23
  · refine .inr (.inr (.inr (.inl ⟨BitVec.eq_of_toNat_eq h4, ?_⟩)))
    have h24 : n = 24#6 := BitVec.eq_of_toNat_eq (by rw [hn, h4]; rfl)
    rw [if_neg (by omega), if_neg (by omega), if_neg (by omega), if_pos (by omega), h24]
  · refine .inr (.inr (.inr (.inr ⟨by omega, ?_⟩)))
    rw [if_neg (by omega), if_neg (by omega), if_neg (by omega), if_neg (by omega)]

/-- SPACE on a bit, once attached: one PUSH_BIT, then DEBOUNCE_CMD when a command completes (R125,
R131). -/
theorem execSpace_bit (s : State) (d : Dur) (ha : s.attached = true)
    (h : spaceSum s d < s.cfg.tRepeat) :
    exec (.space d) s = .next
      (match pushBit (sumBit s.cfg (spaceSum s d)) s.quiet with
        | (some c, t) => debounceCmd c t
        | (none, t) => t) := by
  have hd : (combinedDuration s.markLatch d).toNat = spaceSum s d := combinedDuration_toNat _ _
  have hc : classify s.cfg (combinedDuration s.markLatch d)
      = if s.cfg.tBit1 ≤ spaceSum s d then .bit1 else .bit0 := by
    rw [← hd]; exact classify_bit (by omega)
  show execSpace d s = _
  simp only [execSpace, ha, if_true, resolve, State.quiet_cfg, hc]
  by_cases hb : s.cfg.tBit1 ≤ spaceSum s d
  · simp only [hb, if_true, sumBit, decide_true]
    rcases pushBit true s.quiet with ⟨_ | c, t⟩ <;> rfl
  · simp only [hb, if_false, sumBit, decide_false]
    rcases pushBit false s.quiet with ⟨_ | c, t⟩ <;> rfl

/-- SPACE on a repeat symbol, once attached (R125, R131). -/
theorem execSpace_repeat (s : State) (d : Dur) (ha : s.attached = true) (hw : s.cfg.wf = true)
    (h1 : s.cfg.tRepeat ≤ spaceSum s d) (h2 : spaceSum s d < s.cfg.tStart) :
    exec (.space d) s = .next (debounceRepeat (resync s.quiet)) := by
  have hd : (combinedDuration s.markLatch d).toNat = spaceSum s d := combinedDuration_toNat _ _
  have hc := classify_repeat (d := combinedDuration s.markLatch d) hw (by omega) (by omega)
  show execSpace d s = _
  simp only [execSpace, ha, if_true, resolve, State.quiet_cfg, hc]
  rfl

/-- SPACE on a longer symbol, once attached: the resync and nothing else (R103). -/
theorem execSpace_long (s : State) (d : Dur) (ha : s.attached = true) (hw : s.cfg.wf = true)
    (h : s.cfg.tStart ≤ spaceSum s d) : exec (.space d) s = .next (resync s.quiet) := by
  have hd : (combinedDuration s.markLatch d).toNat = spaceSum s d := combinedDuration_toNat _ _
  have hc := classify_long (d := combinedDuration s.markLatch d) hw (by omega)
  show execSpace d s = _
  rcases hc with hc | hc <;>
    simp only [execSpace, ha, if_true, resolve, State.quiet_cfg, hc] <;> rfl

/-- SPACE, whatever the thresholds are: the three things it can do once attached. -/
theorem execSpace_cases (s : State) (d : Dur) :
    (s.attached = false ∧ exec (.space d) s = .next s.quiet) ∨
    (s.attached = true ∧ ∃ b, exec (.space d) s = .next
      (match pushBit b s.quiet with
        | (some c, t) => debounceCmd c t
        | (none, t) => t)) ∨
    (s.attached = true ∧ exec (.space d) s = .next (debounceRepeat (resync s.quiet))) ∨
    (s.attached = true ∧ exec (.space d) s = .next (resync s.quiet)) := by
  show (_ ∧ execSpace d s = _) ∨ (_ ∧ ∃ b, execSpace d s = _) ∨ (_ ∧ execSpace d s = _) ∨
    (_ ∧ execSpace d s = _)
  by_cases ha : s.attached = true
  · simp only [execSpace, ha, if_true, resolve, true_and]
    cases classify s.quiet.cfg (combinedDuration s.markLatch d) with
    | bit0 => exact .inr (.inl ⟨false, by rcases pushBit false s.quiet with ⟨_ | c, t⟩ <;> rfl⟩)
    | bit1 => exact .inr (.inl ⟨true, by rcases pushBit true s.quiet with ⟨_ | c, t⟩ <;> rfl⟩)
    | repeatSym => exact .inr (.inr (.inl rfl))
    | frameStart => exact .inr (.inr (.inr rfl))
    | incomplete => exact .inr (.inr (.inr rfl))
  · exact .inl ⟨by simpa using ha, by simp [execSpace, ha]⟩

theorem wireCode_ne_none (c : Code) : wireCode c ≠ noneCode := by
  revert c
  decide

theorem wireCode_low (c : Code) : (wireCode c).extractLsb' 0 8 = c := by
  revert c
  decide

theorem wireCode_inj (c c' : Code) : wireCode c = wireCode c' ↔ c = c' := by
  constructor
  · intro h
    rw [← wireCode_low c, ← wireCode_low c', h]
  · rintro rfl
    rfl

/-- A held code that is a wire code is the code9 of its low byte. -/
theorem wireCode_of_held (a : Code9) (h : isNoneOrWire a = true) (hn : a ≠ noneCode) :
    wireCode (a.extractLsb' 0 8) = a := by
  revert a
  decide

theorem isNoneOrWire_wireCode (c : Code) : isNoneOrWire (wireCode c) = true := by
  revert c
  decide

theorem held_iff (s : State) : s.held = true ↔ s.activeCommand ≠ noneCode := by
  simp [State.held]

theorem not_held_iff (s : State) : s.held = false ↔ s.activeCommand = noneCode := by
  simp [State.held]

/-- DEBOUNCE_CMD on a state with no event yet: a press, a release and a press, or the same code again
(R141, R142). -/
theorem debounceCmd_cases (c : Code) (s : State) :
    (s.activeCommand = noneCode ∧ debounceCmd c s = { s with
      lastCommand := wireCode c
      activeCommand := wireCode c
      hasUnreadPress := true
      repeatDeadline := s.now + s.cfg.repeatWindowMs
      out := { s.out with events := s.out.events ++ [record s.subTable .pressed c] } }) ∨
    (s.activeCommand ≠ noneCode ∧ s.activeCommand ≠ wireCode c ∧ debounceCmd c s = { s with
      lastCommand := wireCode c
      activeCommand := wireCode c
      hasUnreadPress := true
      repeatDeadline := s.now + s.cfg.repeatWindowMs
      out := { s.out with events := s.out.events
        ++ [record s.subTable .released s.heldCode, record s.subTable .pressed c] } }) ∨
    (s.activeCommand = wireCode c ∧ debounceCmd c s = { s with
      lastCommand := wireCode c
      repeatDeadline :=
        if s.cfg.sameCodeRefresh then s.now + s.cfg.repeatWindowMs else s.repeatDeadline }) := by
  by_cases h : s.activeCommand = wireCode c
  · refine .inr (.inr ⟨h, ?_⟩)
    simp only [debounceCmd, h, ne_eq, not_true_eq_false, if_false]
    split <;> simp_all [State.refresh, State.now]
  · by_cases hn : s.activeCommand = noneCode
    · refine .inl ⟨hn, ?_⟩
      have hf : ({ s with lastCommand := wireCode c } : State).held = false := (not_held_iff _).2 hn
      simp only [debounceCmd, ne_eq, h, not_false_eq_true, if_true, pressNew, releaseHeld, hf,
        Bool.false_eq_true, if_false]
      rfl
    · refine .inr (.inl ⟨hn, h, ?_⟩)
      have ht : ({ s with lastCommand := wireCode c } : State).held = true := (held_iff _).2 hn
      simp only [debounceCmd, ne_eq, h, not_false_eq_true, if_true, pressNew, releaseHeld, ht]
      simp [State.emit, State.setUnread, State.refresh, State.now, State.heldCode, record]

/-- DEBOUNCE_REPEAT (R143, R144). -/
theorem debounceRepeat_eq (s : State) :
    debounceRepeat s = { s with
      repeatDeadline := if s.held then s.now + s.cfg.repeatWindowMs else s.repeatDeadline } := by
  unfold debounceRepeat
  split <;> rfl

/-- TICK: a release, or only a new `tick_due` (R145 to R147). -/
theorem execTick_cases (s : State) :
    (s.held = true ∧ after s.now s.repeatDeadline = true ∧ exec .tick s = .next { s with
      activeCommand := noneCode
      tickDue := s.now + 2 * s.cfg.repeatWindowMs
      out := announce [record s.subTable .released s.heldCode] }) ∨
    (¬ (s.held = true ∧ after s.now s.repeatDeadline = true) ∧ exec .tick s = .next { s with
      tickDue := s.now + (if s.held then s.cfg.repeatWindowMs else 2 * s.cfg.repeatWindowMs)
      out := Output.quiet }) := by
  show (_ ∧ _ ∧ execTick s = _) ∨ (_ ∧ execTick s = _)
  by_cases h : s.held = true ∧ after s.now s.repeatDeadline = true
  · refine .inl ⟨h.1, h.2, ?_⟩
    simp only [execTick, tickRelease, State.quiet_held, State.quiet_now, State.quiet_repeatDeadline, h,
      and_self, if_true]
    rfl
  · refine .inr ⟨h, ?_⟩
    simp only [execTick, tickRelease, State.quiet_held, State.quiet_now, State.quiet_repeatDeadline, h,
      if_false, scheduleTick, tickInterval]
    rfl

/-- SUBSCRIBE: refused as illegal, refused as full, or stored (R172, R173). -/
theorem execSubscribe_cases (a : EventKind) (h : HandlerId) (i : ButtonId) (s : State) :
    (buttonRef s.cfg i = none ∧
      exec (.subscribe a h i) s = .next (s.quiet.raiseIllegal .host)) ∨
    (∃ e, subEntry s.cfg a h i = some e ∧ s.subCount.toNat = s.cfg.subSlots ∧
      exec (.subscribe a h i) s = .next { s with subOverflow := true, out := answer 0 }) ∨
    (∃ e, subEntry s.cfg a h i = some e ∧ s.subCount.toNat ≠ s.cfg.subSlots ∧
      exec (.subscribe a h i) s = .next { s with
        subTable := s.subTable.set s.subCount.toNat e
        subCount := s.subCount + 1
        out := answer (storedResponse s.subCount) }) := by
  show (_ ∧ execSubscribe a h i s = _) ∨ (∃ e, _ ∧ _ ∧ execSubscribe a h i s = _) ∨
    (∃ e, _ ∧ _ ∧ execSubscribe a h i s = _)
  unfold execSubscribe
  cases he : subEntry s.cfg a h i with
  | none =>
    refine .inl ⟨?_, rfl⟩
    unfold subEntry at he
    split at he <;> simp_all
  | some e =>
    by_cases hf : s.subCount.toNat = s.cfg.subSlots
    · exact .inr (.inl ⟨e, rfl, hf, by simp only [hf, if_true]; rfl⟩)
    · exact .inr (.inr ⟨e, rfl, hf, by simp only [hf, if_false]; rfl⟩)

/-- The entry of a SUBSCRIBE is valid, and holds no code when it is the wildcard's (R34, R172). -/
theorem subEntry_shape {cfg : Config} {a : EventKind} {h : HandlerId} {i : ButtonId} {e : SubEntry}
    (he : subEntry cfg a h i = some e) : e.valid = true ∧ (e.any = true → e.code = 0) := by
  unfold subEntry at he
  split at he
  · simp at he
  · cases he; simp
  · cases he; simp

/-- ATTACH: a no-op, or the first (R170, R171). -/
theorem execAttach_cases (p : Protocol) (src : SrcId) (s : State) :
    (s.attached = true ∧ exec (.attach p src) s = .next { s with out := answer 0 }) ∨
    (s.attached = false ∧ exec (.attach p src) s = .next { s with
      attached := true, protocol := p, srcSel := src, tickDue := s.now, out := answer 1 }) := by
  show (_ ∧ execAttach p src s = _) ∨ (_ ∧ execAttach p src s = _)
  by_cases ha : s.attached = true
  · exact .inl ⟨ha, by rw [execAttach, if_pos ha]; rfl⟩
  · exact .inr ⟨by simpa using ha, by rw [execAttach, if_neg ha]; rfl⟩

/-- BUTTON_CODE: a lookup, or illegal (R176). -/
theorem execButtonCode_cases (i : ButtonId) (s : State) :
    (buttonRef s.cfg i = none ∧ exec (.buttonCode i) s = .next (s.quiet.raiseIllegal .host)) ∨
    (∃ r, buttonRef s.cfg i = some r ∧
      exec (.buttonCode i) s = .next { s with out := answer ((buttonCode9 r).setWidth 32) }) := by
  show (_ ∧ execButtonCode i s = _) ∨ (∃ r, _ ∧ execButtonCode i s = _)
  unfold execButtonCode
  cases buttonRef s.cfg i with
  | none => exact .inl ⟨rfl, rfl⟩
  | some r => exact .inr ⟨r, rfl, rfl⟩

/-- No instruction stops the machine. -/
theorem exec_next (i : Instr) (s : State) : ∃ t, exec i s = .next t := by
  cases i with
  | mark d => exact ⟨_, rfl⟩
  | space d => rcases execSpace_cases s d with h | ⟨_, b, h⟩ | h | h <;> exact ⟨_, by first | exact h.2 | exact h⟩
  | tick => exact ⟨_, rfl⟩
  | attach p src => rcases execAttach_cases p src s with h | h <;> exact ⟨_, h.2⟩
  | subscribe a h b =>
    rcases execSubscribe_cases a h b s with h | ⟨e, _, _, h⟩ | ⟨e, _, _, h⟩
    · exact ⟨_, h.2⟩
    · exact ⟨_, h⟩
    · exact ⟨_, h⟩
  | currentButton => exact ⟨_, rfl⟩
  | wasPressed => exact ⟨_, rfl⟩
  | buttonCode b =>
    rcases execButtonCode_cases b s with h | ⟨r, _, h⟩
    · exact ⟨_, h.2⟩
    · exact ⟨_, h⟩
  | readStatus => exact ⟨_, rfl⟩

end Sys2Proof.Machine
end

