-- ==== Sys2Proof/Laws/PerInstr.lean ====
section
/-! SUPPORT. Statements made for each instruction. Family `SelectsOwnRow`: the encoder, written from the
formats of R81, gives a word that the instruction's own row of R83 selects. -/

namespace Sys2Proof.Laws.SelectsOwnRow

/-- The word of an instruction matches its own row. -/
def Statement (i : Instr) : Prop := i.op.selects (encode i) = true

theorem subOfBit_reserved (b : Bool) : subOfBit b &&& 0xE#4 = 0 := by
  cases b <;> decide

theorem byteArg_reserved (v : BitVec 8) : (0#24 ++ v : BitVec 32) &&& 0xFFFFFF00#32 = 0 := by
  rw [and_high24, BitVec.toNat_append]
  simpa using v.isLt

theorem twoByteArg_reserved (h v : BitVec 8) :
    (0#16 ++ h ++ v : BitVec 32) &&& 0xFFFF0000#32 = 0 := by
  rw [and_high16]
  have hv := v.isLt
  have hh := h.isLt
  rw [BitVec.toNat_append, BitVec.toNat_append, ← Nat.shiftLeft_add_eq_or_of_lt hv,
    ← Nat.shiftLeft_add_eq_or_of_lt hh]
  simp only [Nat.shiftLeft_eq, BitVec.toNat_ofNat]
  omega

theorem mark (d : Dur) : Statement (.mark d) := by
  rw [Statement, Op.selects_iff]
  simp [encode, Instr.op, Op.opcode, Op.subReserved, Op.argReserved]

theorem space (d : Dur) : Statement (.space d) := by
  rw [Statement, Op.selects_iff]
  simp [encode, Instr.op, Op.opcode, Op.subReserved, Op.argReserved]

theorem tick : Statement .tick := by
  rw [Statement, Op.selects_iff]
  simp [encode, Instr.op, Op.opcode, Op.subReserved, Op.argReserved]

theorem attach (p : Protocol) (src : SrcId) : Statement (.attach p src) := by
  rw [Statement, Op.selects_iff]
  simp only [encode, Instr.op, opField_mkWord, subField_mkWord, argField_mkWord]
  exact ⟨rfl, subOfBit_reserved _, byteArg_reserved src⟩

theorem subscribe (a : EventKind) (h : HandlerId) (i : ButtonId) : Statement (.subscribe a h i) := by
  rw [Statement, Op.selects_iff]
  simp only [encode, Instr.op, opField_mkWord, subField_mkWord, argField_mkWord]
  exact ⟨rfl, subOfBit_reserved _, twoByteArg_reserved h i⟩

theorem currentButton : Statement .currentButton := by
  rw [Statement, Op.selects_iff]
  simp [encode, Instr.op, Op.opcode, Op.subReserved, Op.argReserved]

theorem wasPressed : Statement .wasPressed := by
  rw [Statement, Op.selects_iff]
  simp [encode, Instr.op, Op.opcode, Op.subReserved, Op.argReserved]

theorem buttonCode (i : ButtonId) : Statement (.buttonCode i) := by
  rw [Statement, Op.selects_iff]
  simp only [encode, Instr.op, opField_mkWord, subField_mkWord, argField_mkWord]
  exact ⟨rfl, by simp, byteArg_reserved i⟩

theorem readStatus : Statement .readStatus := by
  rw [Statement, Op.selects_iff]
  simp [encode, Instr.op, Op.opcode, Op.subReserved, Op.argReserved]

end Sys2Proof.Laws.SelectsOwnRow
end

