-- ==== Sys2Proof/Laws/Step.lean ====
section
/-! SUPPORT. What the serialiser and one step can do, said once. -/

namespace Sys2Proof.Machine

open Host (Outcome)

theorem mem_ready_iff (s : State) (a : Arrival) :
    a ∈ ready s ↔ a ∈ arrivals s ∧ ∀ b ∈ arrivals s, a.time ≤ b.time := by
  simp [ready]

/-- Reading a choice changes nothing but the choices. -/
theorem takePick_frame (s : State) :
    (takePick s).2 = { s with picks := (takePick s).2.picks, ties := (takePick s).2.ties } := by
  unfold takePick
  split <;> rfl

/-- Some arrival of a non-empty list is the earliest. -/
theorem exists_earliest : ∀ l : List Arrival, l ≠ [] → ∃ a ∈ l, ∀ b ∈ l, a.time ≤ b.time
  | [], h => absurd rfl h
  | [a], _ => ⟨a, by simp, by simp⟩
  | a :: b :: l, _ => by
    obtain ⟨m, hm, hmin⟩ := exists_earliest (b :: l) (by simp)
    by_cases h : a.time ≤ m.time
    · refine ⟨a, by simp, fun x hx => ?_⟩
      rcases List.mem_cons.1 hx with rfl | hx
      · exact Nat.le_refl _
      · exact Nat.le_trans h (hmin x hx)
    · refine ⟨m, List.mem_cons_of_mem _ hm, fun x hx => ?_⟩
      rcases List.mem_cons.1 hx with rfl | hx
      · omega
      · exact hmin x hx

/-- Something is ready whenever something is on offer. -/
theorem ready_eq_nil_iff (s : State) : ready s = [] ↔ arrivals s = [] := by
  constructor
  · intro h
    refine Decidable.byContradiction fun hne => ?_
    obtain ⟨a, ha, hmin⟩ := exists_earliest _ hne
    have : a ∈ ready s := (mem_ready_iff s a).2 ⟨ha, hmin⟩
    simp [h] at this
  · intro h
    simp [ready, h]

/-- What the serialiser can answer: one of the ready arrivals, with only the choices changed. -/
theorem arbitrate_some {s s' : State} {a : Arrival} (h : arbitrate s = some (a, s')) :
    a ∈ ready s ∧ s' = { s with picks := s'.picks, ties := s'.ties } := by
  unfold arbitrate at h
  split at h
  · simp at h
  next x hx =>
    simp only [Option.some.injEq, Prod.mk.injEq] at h
    obtain ⟨rfl, rfl⟩ := h
    exact ⟨by simp [hx], rfl⟩
  next x y rest hx =>
    simp only [Option.map_eq_some_iff, Prod.mk.injEq] at h
    obtain ⟨z, hz, rfl, rfl⟩ := h
    exact ⟨by rw [hx]; exact List.mem_of_getElem? hz, takePick_frame s⟩

/-- The serialiser has no answer exactly when nothing is on offer. -/
theorem arbitrate_eq_none_iff (s : State) : arbitrate s = none ↔ arrivals s = [] := by
  rw [← ready_eq_nil_iff]
  constructor
  · intro h
    unfold arbitrate at h
    split at h
    next hx => exact hx
    · simp at h
    next x y rest hx =>
      simp only [Option.map_eq_none_iff, List.getElem?_eq_none_iff] at h
      have hlt := Nat.mod_lt (takePick s).1 (show 0 < (x :: y :: rest).length by simp)
      exact absurd h (Nat.not_le.2 hlt)
  · intro h
    simp [arbitrate, h]

/-- When only one arrival is ready, it is taken and no choice is made. -/
theorem arbitrate_of_ready_single {s : State} {a : Arrival} (h : ready s = [a]) :
    arbitrate s = some (a, s) := by
  simp [arbitrate, h]

/-- Where an arrival comes from. -/
theorem mem_arrivals_iff (s : State) (a : Arrival) :
    a ∈ arrivals s ↔
      portArrival .edge s = some a ∨ portArrival .host s = some a ∨ tickArrival s = some a := by
  simp [arrivals]

theorem portArrival_eq_some {p : Port} {s : State} {a : Arrival} (h : portArrival p s = some a) :
    ∃ x, firstOn p s.trace = some x ∧ a = { source := portSource p, time := x.time, word := x.word } := by
  simp only [portArrival, Option.map_eq_some_iff] at h
  obtain ⟨x, hx, rfl⟩ := h
  exact ⟨x, hx, rfl⟩

theorem tickArrival_eq_some {s : State} {a : Arrival} (h : tickArrival s = some a) :
    s.attached = true ∧ nextTickTime s ≤ s.horizon ∧
      a = { source := .scheduler, time := nextTickTime s, word := 0x3000000000#40 } := by
  unfold tickArrival at h
  split at h
  next hc => exact ⟨hc.1, hc.2, by simpa using h.symm⟩
  · simp at h

theorem firstOn_mem {p : Port} {xs : List TraceItem} {x : TraceItem} (h : firstOn p xs = some x) :
    x ∈ xs ∧ x.port = p := by
  induction xs with
  | nil => simp [firstOn] at h
  | cons y ys ih =>
    simp only [firstOn] at h
    split at h
    next hp =>
      obtain rfl : y = x := by simpa using h
      exact ⟨by simp, hp⟩
    · exact ⟨List.mem_cons_of_mem _ (ih h).1, (ih h).2⟩

/-- A well-formed trace holds no time before its start or past the horizon. -/
theorem traceOrdered_mem {H t : Nat} {xs : List TraceItem} (h : traceOrdered H t xs = true)
    {x : TraceItem} (hx : x ∈ xs) : t ≤ x.time ∧ x.time ≤ H := by
  induction xs generalizing t with
  | nil => simp at hx
  | cons y ys ih =>
    simp only [traceOrdered, Bool.and_eq_true, decide_eq_true_eq] at h
    rcases List.mem_cons.1 hx with rfl | hx
    · exact h.1
    · have := ih h.2 hx
      omega

/-- The unbounded tick time is `tick_due` modulo 2^32. -/
theorem nextTickTime_mod (s : State) : BitVec.ofNat 32 (nextTickTime s) = s.tickDue := by
  apply BitVec.eq_of_toNat_eq
  have hd := s.tickDue.isLt
  simp only [nextTickTime, State.now, BitVec.toNat_ofNat, BitVec.toNat_sub]
  omega

theorem nextTickTime_ge (s : State) : s.time ≤ nextTickTime s := Nat.le_add_right _ _

/-- Decoding for a source, in terms of decoding. -/
theorem decodeFor_ok_iff (src : Source) (w : TWord) (i : Instr) :
    decodeFor src w = .ok i ↔ decode w = .ok i ∧ i.op.source = src := by
  unfold decodeFor
  cases decode w with
  | error r => simp
  | ok j =>
    by_cases h : j.op.source = src
    · simp only [h, if_true, Except.ok.injEq]
      constructor
      · rintro rfl
        exact ⟨rfl, h⟩
      · exact fun hh => hh.1
    · simp only [h, if_false, reduceCtorEq, Except.ok.injEq, false_iff]
      rintro ⟨rfl, hh⟩
      exact h hh

/-- A transaction, whole: its instruction runs, or the fault is raised (R87). -/
theorem perform_cases (src : Source) (w : TWord) (s : State) :
    (∃ i, decode w = .ok i ∧ i.op.source = src ∧ perform src w s = exec i s) ∨
    ((∀ i, decode w = .ok i → i.op.source ≠ src) ∧ perform src w s = .next (s.raiseIllegal src)) := by
  unfold perform
  cases h : decodeFor src w with
  | ok i =>
    have := (decodeFor_ok_iff src w i).1 h
    exact .inl ⟨i, this.1, this.2, rfl⟩
  | error r =>
    refine .inr ⟨fun i hi hs => ?_, rfl⟩
    rw [(decodeFor_ok_iff src w i).2 ⟨hi, hs⟩] at h
    cases h

/-- A step that answers: the trace is well-formed, an arrival is taken, and its transaction runs. -/
theorem step_next {s t : State} (h : step s = .next t) :
    s.traceOk = true ∧ ∃ a s', arbitrate s = some (a, s') ∧
      perform a.source a.word (accept a s') = .next t := by
  unfold step at h
  split at h
  next hok =>
    refine ⟨hok, ?_⟩
    split at h
    next a s' ha => exact ⟨a, s', ha, h⟩
    · cases h
  · cases h

theorem step_of_arbitrate {s s' : State} {a : Arrival} (hok : s.traceOk = true)
    (h : arbitrate s = some (a, s')) : step s = perform a.source a.word (accept a s') := by
  simp [step, hok, h]

/-- What no instruction touches: the parameters, the run and the choices. -/
theorem exec_keeps_run {i : Instr} {s t : State} (h : exec i s = .next t) :
    t.cfg = s.cfg ∧ t.time = s.time ∧ t.trace = s.trace ∧ t.horizon = s.horizon ∧
      t.picks = s.picks ∧ t.ties = s.ties := by
  cases i with
  | mark d =>
    simp only [exec, execMark, Outcome.next.injEq] at h
    subst h
    split <;> simp
  | space d =>
    rcases execSpace_cases s d with ⟨_, hx⟩ | ⟨_, b, hx⟩ | ⟨_, hx⟩ | ⟨_, hx⟩ <;> rw [hx] at h <;>
      cases h
    · simp
    · rcases pushBit_cases b s.quiet with ⟨_, hp⟩ | ⟨_, _, hp⟩ | ⟨_, _, hp⟩ | ⟨_, hp⟩ | ⟨_, hp⟩ <;>
        rw [hp]
      · simp
      · simp
      · simp
      · simp only
        rcases debounceCmd_cases (shiftIn s.quiet.commandBits b) { s.quiet with
          commandBits := shiftIn s.quiet.commandBits b, bitsReceived := 24#6 } with
          ⟨_, hc⟩ | ⟨_, _, hc⟩ | ⟨_, hc⟩ <;> rw [hc] <;> simp
      · simp
    · rw [debounceRepeat_eq]
      simp [resync]
    · simp [resync]
  | tick =>
    rcases execTick_cases s with ⟨_, _, hx⟩ | ⟨_, hx⟩ <;> rw [hx] at h <;> cases h <;> simp
  | attach p src =>
    rcases execAttach_cases p src s with ⟨_, hx⟩ | ⟨_, hx⟩ <;> rw [hx] at h <;> cases h <;> simp
  | subscribe a hh b =>
    rcases execSubscribe_cases a hh b s with ⟨_, hx⟩ | ⟨e, _, _, hx⟩ | ⟨e, _, _, hx⟩ <;>
      rw [hx] at h <;> cases h <;> simp
  | currentButton => cases h; simp
  | wasPressed => cases h; simp
  | buttonCode b =>
    rcases execButtonCode_cases b s with ⟨_, hx⟩ | ⟨r, _, hx⟩ <;> rw [hx] at h <;> cases h <;> simp
  | readStatus => cases h; simp

end Sys2Proof.Machine
end

