-- ==== Sys2Proof/Tests/Slice0.lean ====
section
/-! SUPPORT. Tests: ill-formed instructions, words written out by hand, one step of each instruction with
expected values of spec/95_test_vectors.md, and for each statement with hypotheses a state and operands
that meet them. -/

namespace Sys2Proof.Tests

open Sys2Proof Sys2Proof.Machine

/-! ### Helpers -/

/-- The state an instruction leaves, when it leaves one. -/
def run1 (i : Instr) (s : State) : Option State :=
  match exec i s with
  | .next t => some t
  | .fault _ => none
  | .refused _ => none

/-- The state one step leaves, when it leaves one. -/
def step1 (s : State) : Option State :=
  match step s with
  | .next t => some t
  | .fault _ => none
  | .refused _ => none

/-- Attached under Standard at time `n`, the TICK due at once, the run going on for 1000 ms. -/
def attachedAt (n : Nat) : State :=
  { State.reset with attached := true, time := n, tickDue := BitVec.ofNat 32 n, horizon := n + 1000 }

/-- Holding `c`, the deadline at `d`. -/
def holding (c : Code) (n : Nat) (d : Time) : State :=
  { attachedAt n with lastCommand := wireCode c, activeCommand := wireCode c, repeatDeadline := d }

/-- `k` bits received so far. -/
def counting (k : BitVec 6) (cb : Code) (m : Dur) : State :=
  { attachedAt 10 with bitsReceived := k, commandBits := cb, markLatch := m }

/-- Two subscriptions in a table of `n` slots. -/
def withTwo (n : Nat) : State :=
  { State.powerOn { Config.hardware with subSlots := n } with
    subTable :=
      [{ valid := true, action := .pressed, any := false, code := 0x11, handler := 1 },
       { valid := true, action := .released, any := true, code := 0, handler := 2 }]
    subCount := 2 }

/-! ### Ill-formed instructions are refused by the check -/

theorem test_subscribe_unassigned_main :
    (Instr.subscribe .pressed 1 0x08).wellFormed Config.hardware = false := by decide

theorem test_subscribe_reserved_id :
    (Instr.subscribe .released 1 0x80).wellFormed Config.hardware = false := by decide

theorem test_buttonCode_unassigned_mini :
    (Instr.buttonCode 0x43).wellFormed Config.hardware = false := by decide

theorem test_buttonCode_last_reserved_id :
    (Instr.buttonCode 0xFE).wellFormed Config.hardware = false := by decide

theorem test_buttonCode_extra_is_legal : (Instr.buttonCode 0x08).wellFormed
    { Config.hardware with catalogueExtra := [(0x08#8, 0x55#8)] } = true := by decide

theorem test_any_is_legal : (Instr.subscribe .pressed 7 0xFF).wellFormed Config.hardware = true ∧
    (Instr.buttonCode 0xFF).wellFormed Config.hardware = true := by decide

/-! ### Decoding, words written out bit by bit: OP, SUB, ARG -/

theorem test_decode_mark :
    decode 0b0001000000000000000000000010001100101000#40 = .ok (.mark 9000) := by rfl

theorem test_decode_space :
    decode 0b0010000000000000000000000000011010011010#40 = .ok (.space 1690) := by rfl

theorem test_decode_tick :
    decode 0b0011000000000000000000000000000000000000#40 = .ok .tick := by rfl

theorem test_decode_attach :
    decode 0b0100000100000000000000000000000000000011#40 = .ok (.attach .addressLenient 3) := by rfl

theorem test_decode_subscribe :
    decode 0b0101000100000000000000000000001000000001#40 = .ok (.subscribe .released 2 1) := by rfl

theorem test_decode_currentButton :
    decode 0b0110000000000000000000000000000000000000#40 = .ok .currentButton := by rfl

theorem test_decode_wasPressed :
    decode 0b0111000000000000000000000000000000000000#40 = .ok .wasPressed := by rfl

theorem test_decode_buttonCode :
    decode 0b1000000000000000000000000000000000000101#40 = .ok (.buttonCode 5) := by rfl

theorem test_decode_readStatus :
    decode 0b1001000000000000000000000000000000000000#40 = .ok .readStatus := by rfl

theorem test_encode_subscribe : encode (.subscribe .released 2 1) = 0x5100000201#40 := by decide

theorem test_reserved_opcodes : decode 0x0000000000#40 = .error .reservedOpcode ∧
    decode 0xA000000000#40 = .error .reservedOpcode ∧
    decode 0xF123456789#40 = .error .reservedOpcode := by
  refine ⟨?_, ?_, ?_⟩ <;> rfl

theorem test_reserved_bits : decode 0x1100000230#40 = .error .reservedBit ∧
    decode 0x4200000000#40 = .error .reservedBit ∧ decode 0x4000000100#40 = .error .reservedBit ∧
    decode 0x5200000000#40 = .error .reservedBit ∧ decode 0x5000010000#40 = .error .reservedBit ∧
    decode 0x6100000000#40 = .error .reservedBit ∧ decode 0x7000000001#40 = .error .reservedBit ∧
    decode 0x8000000105#40 = .error .reservedBit ∧ decode 0x9000000001#40 = .error .reservedBit := by
  refine ⟨?_, ?_, ?_, ?_, ?_, ?_, ?_, ?_, ?_⟩ <;> rfl

theorem test_wrong_ports : decodeFor .host 0x1000000230#40 = .error .wrongPort ∧
    decodeFor .edge 0x4000000000#40 = .error .wrongPort ∧
    decodeFor .edge 0x3000000000#40 = .error .wrongPort ∧
    decodeFor .host 0x3000000000#40 = .error .wrongPort := by
  refine ⟨?_, ?_, ?_, ?_⟩ <;> rfl

theorem test_decodeTableWord : decodeTableWord 40 0x5100000806 = some (.subscribe .released 8 6) ∧
    decodeTableWord 40 0xA000000000 = none := by decide

/-! ### One step of each instruction -/

/-- 95_test_vectors.md E1. -/
theorem test_mark : (run1 (.mark 9000) (attachedAt 10)).map (·.markLatch) = some 9000 := by decide

/-- E2. -/
theorem test_space_bit1 :
    (run1 (.space 1690) (counting 0 0 560)).map (·.bitsReceived) = some 1 := by decide

/-- E6: the sum does not wrap. -/
theorem test_space_sum_is_33_bits :
    (run1 (.space 1) (counting 5 0 0xFFFFFFFF)).map (·.bitsReceived) = some 0 := by decide

/-- A1, and §2.2's press. -/
theorem test_space_completes :
    (run1 (.space 1690) (counting 23 0x10 560)).map (fun t => (t.commandBits, t.lastCommand, t.out.events))
      = some (0x21, 0x021, [record State.reset.subTable .pressed 0x21]) := by decide

/-- A3: the lenient jump. -/
theorem test_space_lenient_jump :
    (run1 (.space 1690) { counting 0 0 560 with protocol := .addressLenient }).map (·.bitsReceived)
      = some 9 := by decide

/-- §2.5: the switch from 0x21 to 0x69 at 300. -/
theorem test_space_switches :
    (run1 (.space 1690)
      { holding 0x21 300 400 with bitsReceived := 23, commandBits := 0x34, markLatch := 560 }).map
      (fun t => (t.out.events.map fun e => (e.kind, e.code), t.repeatDeadline))
      = some ([(.released, 0x21), (.pressed, 0x69)], 420) := by decide

/-- §6.3 with SAME_CODE_REFRESH false: the deadline stays at 130. -/
theorem test_space_same_code_without_refresh :
    (run1 (.space 1690)
      { holding 0x21 200 130 with
        cfg := { Config.hardware with sameCodeRefresh := false }
        bitsReceived := 23, commandBits := 0x10, markLatch := 560 }).map
      (fun t => (t.out.events, t.repeatDeadline)) = some ([], 130) := by decide

/-- §6.2: at the deadline no release; §6.1: past it a release and the idle interval. -/
theorem test_tick :
    (run1 .tick (holding 0x21 240 240)).map (fun t => (t.held, t.tickDue)) = some (true, 360) ∧
    (run1 .tick (holding 0x21 240 130)).map (fun t => (t.held, t.tickDue)) = some (false, 480) := by
  decide

/-- §6.7: no release at 140 with the deadline at 170, after the wrap of the clock. -/
theorem test_tick_wraps :
    (run1 .tick (holding 0x21 (2 ^ 32 + 140) 170)).map (fun t => (t.held, t.tickDue))
      = some (true, 260) := by decide

/-- H2. -/
theorem test_attach : (run1 (.attach .addressLenient 3) State.reset).map
    (fun t => (t.attached, t.protocol, t.srcSel, t.out.response))
      = some (true, .addressLenient, 3, some 1) := by decide

/-- §2.7. -/
theorem test_attach_again :
    run1 (.attach .addressLenient 3) (attachedAt 0) = some { attachedAt 0 with out := answer 0 } := by
  decide

/-- H3. -/
theorem test_subscribe_any : (run1 (.subscribe .pressed 7 0xFF) State.reset).map
    (fun t => (t.subTable[0]?, t.subCount, t.out.response))
      = some (some ⟨true, .pressed, true, 0, 7⟩, 1, some 1) := by decide

/-- H4: the third SUBSCRIBE to two slots, and the STATUS after it. -/
theorem test_subscribe_full : (run1 (.subscribe .pressed 3 0x02) (withTwo 2)).map
    (fun t => (t.out.response, statusWord t, t.subCount)) = some (some 0, 0x00020010, 2) := by decide

/-- H9. -/
theorem test_currentButton_at_reset :
    (run1 .currentButton State.reset).map (·.out.response) = some (some 0x100) := by decide

/-- §2.6. -/
theorem test_wasPressed :
    (run1 .wasPressed { State.reset with hasUnreadPress := true }).map
      (fun t => (t.out.response, t.hasUnreadPress)) = some (some 1, false) := by decide

/-- H5, H6. -/
theorem test_buttonCode :
    (run1 (.buttonCode 0x05) State.reset).map (·.out.response) = some (some 0x69) ∧
    (run1 (.buttonCode 0xFF) State.reset).map (·.out.response) = some (some 0x1FF) := by decide

/-- §8: an unassigned identifier. -/
theorem test_buttonCode_illegal : (run1 (.buttonCode 0x3F) State.reset).map
    (fun t => (t.faultIllegal, t.out.response, t.out.fault))
      = some (true, some 0, some .illegalTransaction) := by decide

/-- §6.3's READ_STATUS while 0x21 is held. -/
theorem test_readStatus :
    (run1 .readStatus (holding 0x21 300 320)).map (·.out.response) = some (some 0x00002105) := by decide

/-- R206: slot 1 is the wildcard for Released, slot 0 one code for Pressed. -/
theorem test_match_bits : matchBits (withTwo 2).subTable .released 0x91 = [false, true] ∧
    matchBits (withTwo 2).subTable .pressed 0x11 = [true, false] := by decide

/-! ### The step, and a word placed for it -/

/-- The first step after reset runs the placed word: ATTACH Standard, 0 (H1). -/
theorem test_placed_attach :
    (step1 (State.reset.withFetchWord 40 0x4000000000)).map (fun t => (t.attached, t.out.response))
      = some (true, some 1) := by decide

theorem test_placed_tick :
    (step1 (State.reset.withFetchWord 40 0x3000000000)).map (·.tickDue) = some 240 := by decide

theorem test_placed_illegal :
    (step1 (State.reset.withFetchWord 40 0xA000000000)).map (fun t => (t.faultIllegal, t.out.response))
      = some (true, some 0) := by decide

/-- With nothing placed, reset takes no step. -/
theorem test_reset_waits : step State.reset = .refused .noTransaction := by rfl

/-- A trace whose times run backwards is refused. -/
theorem test_trace_refused :
    step (State.reset.load [⟨5, .host, 0x4000000000#40⟩, ⟨4, .host, 0x9000000000#40⟩] 10)
      = .refused .traceIllFormed := by rfl

/-- A line of a trace becomes its transactions (R89). -/
theorem test_assemble_pair : (Asm.pair 560 1690).assemble 7
    = [⟨7, .edge, 0x1000000230#40⟩, ⟨7, .edge, 0x200000069A#40⟩] := by decide

/-! ### Hypotheses that are met: one witness for each statement, in the order of the statements -/

theorem test_witness_no_two_rows : Op.mark.selects 0x10FFFFFFFF#40 = true := by decide

/-- A word no row matches, and a word of another source. -/
theorem test_witness_illegal_words : (∀ i, decode 0xA000000000#40 = .ok i → i.op.source ≠ .host) ∧
    (∀ i, decode 0x3000000000#40 = .ok i → i.op.source ≠ .edge) := by
  constructor
  · intro i h
    rw [show decode 0xA000000000#40 = .error .reservedOpcode from rfl] at h
    cases h
  · intro i h
    rw [show decode 0x3000000000#40 = .ok .tick from rfl] at h
    cases h
    decide

theorem test_witness_detached : State.reset.attached = false := by decide

theorem test_witness_mark : (attachedAt 0).attached = true ∧
    opField 0x1100000000#40 = 0x1#4 ∧ subField 0x1100000000#40 ≠ 0#4 := by decide

/-- The eight boundary durations of §2.1. -/
theorem test_classifier_boundaries : [1599, 1600, 2699, 2700, 12499, 12500, 14499, 14500].map
    (fun d => classify Config.hardware (BitVec.ofNat 33 d))
      = [.bit0, .bit1, .bit1, .repeatSym, .repeatSym, .frameStart, .frameStart, .incomplete] := by
  decide

/-- The premises on the durations of SPACE, each at its boundary. -/
theorem test_witness_space_sums : (counting 5 0 560).attached = true ∧ (counting 5 0 560).cfg.wf = true ∧
    spaceSum (counting 5 0 560) 2139 + 1 = (counting 5 0 560).cfg.tRepeat ∧
    spaceSum (counting 5 0 560) 2140 = (counting 5 0 560).cfg.tRepeat ∧
    spaceSum (counting 5 0 560) 11939 + 1 = (counting 5 0 560).cfg.tStart ∧
    spaceSum (counting 5 0 560) 11940 = (counting 5 0 560).cfg.tStart := by decide

theorem test_space_at_the_boundaries :
    (run1 (.space 2139) (counting 5 3 560)).map (·.bitsReceived) = some 6 ∧
    (run1 (.space 2140) (counting 5 3 560)).map (·.bitsReceived) = some 0 ∧
    (run1 (.space 11940) (counting 5 3 560)).map (·.commandBits) = some 3 := by decide

/-- RPT while Held and while Idle (§6.5, §6.4). -/
theorem test_space_repeat :
    (run1 (.space 2250) { holding 0x21 200 130 with markLatch := 9000 }).map (·.repeatDeadline)
      = some 320 ∧
    (run1 (.space 2250) { attachedAt 10 with markLatch := 9000 }).map (·.repeatDeadline) = some 0 := by
  decide

/-- The counter on both sides of each window: 7 and 8, 15 and 16, 22 and 23, 24, 62 and 63. -/
theorem test_window_boundaries :
    ([7, 8, 15, 16, 22, 23, 24, 62, 63].map fun k =>
      (run1 (.space 1690) (counting k 0x81 560)).map fun t => (t.bitsReceived, t.commandBits))
      = [some (8, 0x81), some (9, 0x81), some (16, 0x81), some (17, 0x03), some (23, 0x03),
         some (24, 0x03), some (25, 0x81), some (63, 0x81), some (63, 0x81)] := by decide

/-- The two clauses of a completed command: another code, and the held one. -/
theorem test_witness_complete : (counting 23 0x10 560).bitsReceived = 23#6 ∧
    spaceSum (counting 23 0x10 560) 1690 < (counting 23 0x10 560).cfg.tRepeat ∧
    (0x21 : Code) = (counting 23 0x10 560).commandBits * 2 +
      (if (counting 23 0x10 560).cfg.tBit1 ≤ spaceSum (counting 23 0x10 560) 1690 then 1 else 0) ∧
    (counting 23 0x10 560).activeCommand ≠ (0x21 : Code).setWidth 9 ∧
    (holding 0x21 10 130).activeCommand = (0x21 : Code).setWidth 9 := by decide

/-- Both clauses of TICK at the deadline and one past it. -/
theorem test_witness_tick : (holding 0x21 241 240).activeCommand ≠ 0x100#9 ∧
    after (BitVec.ofNat 32 (holding 0x21 241 240).time) (holding 0x21 241 240).repeatDeadline = true ∧
    after (BitVec.ofNat 32 (holding 0x21 240 240).time) (holding 0x21 240 240).repeatDeadline = false ∧
    (attachedAt 0).activeCommand = 0x100#9 := by decide

/-- R10 at the ends of its range: 0, 1, 2^31 - 1 and 2^31. -/
theorem test_after_boundaries : after 5 5 = false ∧ after 5 4 = true ∧
    after 0x7FFFFFFF 0 = true ∧ after 0x80000000 0 = false := by decide

theorem test_witness_after : (7 : Nat) < 5 + 2 ^ 31 ∧ (5 : Nat) < 7 + 2 ^ 31 := by decide

theorem test_witness_attach : State.reset.attached = false ∧ (attachedAt 0).attached = true ∧
    opField 0x4200000000#40 = 0x4#4 ∧ 2 ≤ (subField 0x4200000000#40).toNat ∧
    opField 0x4000000100#40 = 0x4#4 ∧ 2 ^ 8 ≤ (argField 0x4000000100#40).toNat := by decide

/-- The wildcard, an assigned and an unassigned identifier, and a word with ARG[16] set. -/
theorem test_witness_subscribe : catRead State.reset.cfg 0x41 = some 0x62 ∧
    (0x41 : ButtonId) ≠ 0xFF#8 ∧ catRead State.reset.cfg 0x08 = none ∧
    opField 0x5000010000#40 = 0x5#4 ∧ 2 ^ 16 ≤ (argField 0x5000010000#40).toNat := by decide

theorem test_witness_full_table : (withTwo 2).subCount.toNat = (withTwo 2).cfg.subSlots ∧
    catRead (withTwo 2).cfg 0x02 = some 0x81 := by decide

theorem test_witness_query_words : opField 0x6000000001#40 = 0x6#4 ∧ argField 0x6000000001#40 ≠ 0#32 ∧
    opField 0x7100000000#40 = 0x7#4 ∧ subField 0x7100000000#40 ≠ 0#4 ∧
    opField 0x9000000001#40 = 0x9#4 ∧ argField 0x9000000001#40 ≠ 0#32 ∧
    opField 0x8000000105#40 = 0x8#4 ∧ 2 ^ 8 ≤ (argField 0x8000000105#40).toNat := by decide

/-- Legal words with the option bit at 0 and at 1, and ARG at the end of its range. -/
theorem test_witness_legal_words : opField 0x10FFFFFFFF#40 = 0x1#4 ∧ subField 0x10FFFFFFFF#40 = 0#4 ∧
    opField 0x41000000FF#40 = 0x4#4 ∧ subField 0x41000000FF#40 = 1#4 ∧
    (argField 0x41000000FF#40).toNat < 2 ^ 8 ∧
    opField 0x500000FFFF#40 = 0x5#4 ∧ subField 0x500000FFFF#40 = 0#4 ∧
    (argField 0x500000FFFF#40).toNat < 2 ^ 16 ∧ argField 0x9000000000#40 = 0#32 := by decide

theorem test_witness_wasPressed_next :
    exec .wasPressed State.reset = .next { State.reset with out := answer 0 } := by rfl

theorem test_witness_buttonCode : catRead State.reset.cfg 0x42 = some 0xE2 ∧
    catRead State.reset.cfg 0x43 = none := by decide

/-- The ends of the unassigned ranges. -/
theorem test_catalogue_ranges : [0x08, 0x3F, 0x43, 0x7F, 0x80, 0xFF].map (catRead Config.hardware)
    = [none, none, none, none, none, none] := by decide

theorem test_witness_match : (withTwo 2).subTable[0]? = some ⟨true, .pressed, false, 0x11, 1⟩ := by
  decide

/-- An instruction with a next state, for the statements about what `exec` answers. -/
theorem test_witness_exec_next :
    exec (.space 2250) State.reset = .next { State.reset with out := Output.quiet } := by rfl

theorem test_witness_well_formed : (Instr.subscribe .pressed 1 0x00).wellFormed Config.hardware = true ∧
    (Instr.tick).wellFormed Config.hardware = true := by decide

theorem test_witness_powerOn : State.reset = State.powerOn Config.hardware := by rfl

/-- A table with nothing stored. -/
theorem registersOk_of_empty {s : State} (hc : s.cfg.wf = true)
    (ht : s.subTable = List.replicate s.cfg.subSlots SubEntry.empty) (hn : s.subCount = 0)
    (ha : isNoneOrWire s.activeCommand = true) (hl : isNoneOrWire s.lastCommand = true)
    (hh : s.lastCommand = s.activeCommand) (hat : s.attached = true) : RegistersOk s := by
  have hmem : ∀ e ∈ s.subTable, e = SubEntry.empty := by
    rw [ht]
    exact fun e he => List.eq_of_mem_replicate he
  refine ⟨hc, by simp [ht], by simp [hn], ?_, fun e he _ => hmem e he, ?_, ha, hl, fun _ => hh, ?_⟩
  · intro i e hi
    rw [hmem e (List.mem_of_getElem? hi), hn]
    simp [SubEntry.empty]
  · intro e he _
    rw [hmem e he]
    rfl
  · intro h
    rw [hat] at h
    cases h

/-- A held code, its TICK due now, past the deadline by 20 ms. -/
theorem test_witness_registersOk : RegistersOk (holding 0x21 240 220) :=
  registersOk_of_empty (by decide) rfl rfl (by decide) (by decide) rfl rfl

theorem test_witness_timingOk : TimingOk (holding 0x21 240 220) :=
  ⟨rfl, by decide, by decide, by decide, by decide⟩

/-- The step from there: the TICK, which releases. -/
theorem test_witness_step : step (holding 0x21 240 220) = .next { holding 0x21 240 220 with
    activeCommand := noneCode
    tickDue := 480
    out := announce [record State.reset.subTable .released 0x21] } := by rfl

theorem test_witness_release : (holding 0x21 240 220).held = true ∧
    (step1 (holding 0x21 240 220)).map (·.held) = some false := by decide

theorem test_witness_silence : TimingOk (holding 0x21 240 220) ∧ (holding 0x21 240 220).attached = true ∧
    (holding 0x21 240 220).held = true ∧ (holding 0x21 240 220).trace = [] ∧
    (holding 0x21 240 220).time + 480 ≤ (holding 0x21 240 220).horizon :=
  ⟨test_witness_timingOk, by decide, by decide, by decide, by decide⟩

/-- A run about to take its one HOST transaction. -/
def asking : State := (attachedAt 10).load [⟨10, .host, 0x9000000000#40⟩] 10

/-- The same time for the TICK and the HOST word: either may be taken. -/
theorem test_witness_arbitrate : asking.traceOk = true ∧
    arbitrate { asking with picks := [0] } = some (⟨.host, 10, 0x9000000000#40⟩, asking) ∧
    arbitrate { asking with picks := [1] } = some (⟨.scheduler, 10, 0x3000000000#40⟩, asking) := by
  decide

theorem test_witness_step_runs : decode 0x9000000000#40 = .ok .readStatus ∧
    (Instr.readStatus).op.source = .host := ⟨rfl, rfl⟩

/-- The other clause of it: an illegal word on HOST, taken alone. -/
theorem test_witness_step_illegal :
    arbitrate (State.reset.load [⟨3, .host, 0xA000000000#40⟩] 3)
      = some (⟨.host, 3, 0xA000000000#40⟩, State.reset.load [⟨3, .host, 0xA000000000#40⟩] 3) := by decide

theorem test_witness_scheduler : (attachedAt 10).attached = true ∧ (attachedAt 10).trace = [] ∧
    nextTickTime (attachedAt 10) ≤ (attachedAt 10).horizon := by decide

theorem test_witness_serialiser : (⟨.host, 10, 0x9000000000#40⟩ : Arrival) ∈ arrivals asking ∧
    (∀ b ∈ arrivals asking, 10 ≤ b.time) := by decide

/-- A HOST item behind an EDGE item. -/
theorem test_witness_port_order : (∀ y ∈ [(⟨1, .edge, 0x1000000001#40⟩ : TraceItem)], y.port ≠ .host) ∧
    (⟨2, .host, 0x9000000000#40⟩ : TraceItem).port = .host := by decide

/-- The three clauses of when a step stops or completes, and the last moment of the horizon. -/
theorem test_witness_stops : (State.reset.load [⟨3, .host, 0#40⟩] 2).traceOk = false ∧
    State.reset.traceOk = true ∧ State.reset.trace = [] ∧ State.reset.attached = false ∧
    asking.trace ≠ [] ∧
    nextTickTime { attachedAt 10 with horizon := 10 } ≤ 10 ∧
    9 < nextTickTime { attachedAt 10 with horizon := 9 } := by decide

/-- §6.6: the deadline 220, a repeat and the TICK both at 240. -/
def race : State := { holding 0x21 240 220 with
  markLatch := 9000, trace := [⟨240, .edge, encode (.space 2250)⟩] }

theorem test_witness_race : race.attached = true ∧ race.cfg = Config.hardware ∧ race.held = true ∧
    race.time ≤ race.horizon ∧ race.tickDue = race.now ∧ after race.now race.repeatDeadline = true ∧
    2700 ≤ spaceSum race 2250 ∧ spaceSum race 2250 < 12500 ∧
    race.trace = [{ time := race.time, port := .edge, word := encode (.space 2250) }] := by decide

/-- A step that stores a subscription, from a state of the register invariant. -/
theorem test_witness_subscriptions :
    RegistersOk ((attachedAt 10).load [⟨10, .host, 0x50000007FF#40⟩] 10) ∧
    (step1 { (attachedAt 10).load [⟨10, .host, 0x50000007FF#40⟩] 10 with picks := [0] }).map (·.subCount)
      = some 1 :=
  ⟨registersOk_of_empty (by decide) rfl rfl (by decide) (by decide) rfl rfl, by decide⟩

theorem test_witness_sticky : (step1 { asking with
    picks := [0], faultIllegal := true, subOverflow := true }).map (fun t => (t.attached, t.out.response))
      = some (true, some 0x19) := by decide

theorem test_witness_command_bits : (counting 16 0 560).commandBits = 0 ∧
    (run1 (.space 1690) (counting 16 0 560)).map (·.commandBits) = some 1 := by decide

/-- Two steps with the events they emit. -/
theorem test_witness_history : isNoneOrWire race.activeCommand = true ∧
    (runSteps 2 { race with picks := [1] }).map (·.2)
      = some [record State.reset.subTable .released 0x21] := by decide

theorem test_witness_twenty_four_bits : (attachedAt 0).protocol = .standard ∧
    (attachedAt 0).bitsReceived = 0 ∧ (List.replicate 16 true).length = 16 := by decide

theorem test_witness_lenient : ({ attachedAt 0 with protocol := .addressLenient } : State).protocol
      = .addressLenient ∧
    ({ attachedAt 0 with protocol := .addressLenient } : State).bitsReceived = 0 ∧ 7 ≤ 8 := by decide

theorem test_witness_frame : (holding 0x11 5 100).attached = true ∧ (holding 0x11 5 100).protocol = .standard ∧
    (holding 0x11 5 100).cfg = Config.hardware := by decide

/-- Three bits of a command in progress: the five high bits differ. -/
theorem test_witness_stale_bits : AgreeButCommandBits (counting 19 0x07 560) (counting 19 0xFF 560) :=
  ⟨rfl, fun _ _ => by decide⟩

theorem test_witness_idle_deadline :
    AgreeButIdleDeadline (attachedAt 5) { attachedAt 5 with repeatDeadline := 77 } :=
  ⟨rfl, by decide⟩

end Sys2Proof.Tests
end

/-! PROOFS. The modular comparison of times (spec/00_scope.md R10): what `after` says of two 32-bit times,
and of the 32-bit times of two unbounded ones. -/

namespace Sys2Proof.Machine

/-- R10's definition: `after a b` places the modular difference in 1 .. 2^31 - 1. -/
theorem after_eq_true_iff (a b : Time) :
    after a b = true ↔ 1 ≤ (a - b).toNat ∧ (a - b).toNat ≤ 2 ^ 31 - 1 := by
  simp only [after, Bool.and_eq_true, decide_eq_true_eq]

/-- Between true times in order and less than 2^32 apart, the modular difference is the true one. -/
theorem time_sub_toNat_of_le {a b : Nat} (hle : b ≤ a) (hnear : a < b + 2 ^ 32) :
    (BitVec.ofNat 32 a - BitVec.ofNat 32 b).toNat = a - b := by
  rw [BitVec.toNat_sub, BitVec.toNat_ofNat, BitVec.toNat_ofNat]
  omega

/-- Between true times out of order and at most 2^32 apart, the modular difference wraps once. -/
theorem time_sub_toNat_of_lt {a b : Nat} (hlt : a < b) (hnear : b ≤ a + 2 ^ 32) :
    (BitVec.ofNat 32 a - BitVec.ofNat 32 b).toNat = a + 2 ^ 32 - b := by
  rw [BitVec.toNat_sub, BitVec.toNat_ofNat, BitVec.toNat_ofNat]
  omega

/-- R10: on true times less than 2^31 ms apart, `after` is the unbounded comparison. -/
theorem after_ofNat_iff_lt {a b : Nat} (ha : a < b + 2 ^ 31) (hb : b < a + 2 ^ 31) :
    after (BitVec.ofNat 32 a) (BitVec.ofNat 32 b) = true ↔ b < a := by
  rw [after_eq_true_iff]
  rcases Nat.lt_or_ge a b with hlt | hle
  · -- the wrapped difference lies above 2^31, out of the window
    have hsub := time_sub_toNat_of_lt hlt (by omega)
    omega
  · -- the true difference lies in the window unless it is 0
    have hsub := time_sub_toNat_of_le hle (by omega)
    omega

/-- Settles O16, by the sign of the true difference. -/
theorem afterIsUnboundedComparison : Obligations.AfterIsUnboundedComparison :=
  ⟨after_eq_true_iff, fun _ _ => after_ofNat_iff_lt⟩

end Sys2Proof.Machine

/-! PROOFS. What one transaction can change, register by register: the pipeline registers, the
subscription table, and the run. The instructions fall into SPACE, TICK and the rest, which never reach
the pipeline. -/

namespace Sys2Proof.Machine

/-! ### The instructions outside the pipeline -/

theorem instr_space_or_tick_or_other (i : Instr) :
    (∃ d, i = .space d) ∨ i = .tick ∨ ((∀ d, i ≠ .space d) ∧ i ≠ .tick) := by
  cases i <;> simp

/-- The pipeline rests: its registers stay and no event is emitted. -/
structure PipelineRests (s t : State) : Prop where
  bits : t.bitsReceived = s.bitsReceived
  command : t.commandBits = s.commandBits
  last : t.lastCommand = s.lastCommand
  active : t.activeCommand = s.activeCommand
  deadline : t.repeatDeadline = s.repeatDeadline
  silent : t.out.events = []

theorem raiseIllegal_pipelineRests (src : Source) (s : State) :
    PipelineRests s (s.raiseIllegal src) := ⟨rfl, rfl, rfl, rfl, rfl, rfl⟩

/-- Only SPACE and TICK reach the pipeline (10_state section 1, "written by"). -/
theorem exec_pipelineRests {i : Instr} {s t : State} (hs : ∀ d, i ≠ .space d) (ht : i ≠ .tick)
    (h : exec i s = .next t) : PipelineRests s t := by
  cases i with
  | mark d =>
    cases h
    split <;> exact ⟨rfl, rfl, rfl, rfl, rfl, rfl⟩
  | space d => exact absurd rfl (hs d)
  | tick => exact absurd rfl ht
  | attach p src =>
    rcases execAttach_cases p src s with ⟨_, hx⟩ | ⟨_, hx⟩ <;> cases hx.symm.trans h <;>
      exact ⟨rfl, rfl, rfl, rfl, rfl, rfl⟩
  | subscribe a hh b =>
    rcases execSubscribe_cases a hh b s with ⟨_, hx⟩ | ⟨_, _, _, hx⟩ | ⟨_, _, _, hx⟩ <;>
      cases hx.symm.trans h <;> exact ⟨rfl, rfl, rfl, rfl, rfl, rfl⟩
  | buttonCode b =>
    rcases execButtonCode_cases b s with ⟨_, hx⟩ | ⟨_, _, hx⟩ <;> cases hx.symm.trans h <;>
      exact ⟨rfl, rfl, rfl, rfl, rfl, rfl⟩
  | currentButton | wasPressed | readStatus => cases h; exact ⟨rfl, rfl, rfl, rfl, rfl, rfl⟩

/-! ### SPACE -/

/-- What a SPACE leaves: the accumulator moves alone, or a command reaches the engine, or a repeat does. -/
inductive SpaceEffect (s : State) : State → Prop
  /-- Before the first ATTACH, outside the command window, and on a resync: only the counter moves. -/
  | counts (k : BitVec 6) : SpaceEffect s { s.quiet with bitsReceived := k }
  /-- In the command window before its last bit (R114). -/
  | shifts (b : Bool) (h17 : 17 ≤ s.bitsReceived.toNat + 1) (h23 : s.bitsReceived.toNat + 1 ≤ 23) :
      SpaceEffect s { s.quiet with
        commandBits := shiftIn s.commandBits b, bitsReceived := nextCount s.bitsReceived }
  /-- At the last bit of the command window (R115). -/
  | completes (b : Bool) (h23 : s.bitsReceived = 23#6) :
      SpaceEffect s (debounceCmd (shiftIn s.commandBits b)
        { s.quiet with commandBits := shiftIn s.commandBits b, bitsReceived := 24#6 })
  /-- On the repeat symbol (R125). -/
  | repeats : SpaceEffect s (debounceRepeat (resync s.quiet))

theorem execSpace_effect {s t : State} {d : Dur} (h : exec (.space d) s = .next t) :
    SpaceEffect s t := by
  rcases execSpace_cases s d with ⟨_, hx⟩ | ⟨_, b, hx⟩ | ⟨_, hx⟩ | ⟨_, hx⟩ <;>
    cases hx.symm.trans h
  · exact .counts s.bitsReceived
  · rcases pushBit_cases b s.quiet with
      ⟨_, hp⟩ | ⟨_, _, hp⟩ | ⟨h17, h23, hp⟩ | ⟨h23, hp⟩ | ⟨_, hp⟩ <;> rw [hp]
    · exact .counts _
    · exact .counts _
    · exact .shifts b h17 h23
    · exact .completes b h23
    · exact .counts _
  · exact .repeats
  · exact .counts 0

/-- DEBOUNCE_CMD writes the engine's registers and the outputs only. -/
theorem debounceCmd_frame (c : Code) (s : State) :
    debounceCmd c s = { s with
      lastCommand := (debounceCmd c s).lastCommand
      activeCommand := (debounceCmd c s).activeCommand
      hasUnreadPress := (debounceCmd c s).hasUnreadPress
      repeatDeadline := (debounceCmd c s).repeatDeadline
      out := (debounceCmd c s).out } := by
  rcases debounceCmd_cases c s with ⟨_, h⟩ | ⟨_, _, h⟩ | ⟨_, h⟩ <;> rw [h]

@[simp] theorem debounceCmd_attached (c : Code) (s : State) :
    (debounceCmd c s).attached = s.attached := by rw [debounceCmd_frame]

@[simp] theorem debounceCmd_bitsReceived (c : Code) (s : State) :
    (debounceCmd c s).bitsReceived = s.bitsReceived := by rw [debounceCmd_frame]

@[simp] theorem debounceCmd_commandBits (c : Code) (s : State) :
    (debounceCmd c s).commandBits = s.commandBits := by rw [debounceCmd_frame]

@[simp] theorem debounceCmd_subTable (c : Code) (s : State) :
    (debounceCmd c s).subTable = s.subTable := by rw [debounceCmd_frame]

@[simp] theorem debounceCmd_subCount (c : Code) (s : State) :
    (debounceCmd c s).subCount = s.subCount := by rw [debounceCmd_frame]

/-- A command sets the unread flag exactly when it emits a Pressed (R141, R142). -/
theorem debounceCmd_hasUnreadPress (c : Code) {s : State} (hs : s.out.events = []) :
    (debounceCmd c s).hasUnreadPress = (s.hasUnreadPress ||
      (debounceCmd c s).out.events.any fun e => decide (e.kind = .pressed)) := by
  rcases debounceCmd_cases c s with ⟨_, h⟩ | ⟨_, _, h⟩ | ⟨_, h⟩ <;> simp [h, hs, record]

/-! ### The unread flag -/

/-- Settles O47: outside WAS_PRESSED the flag moves only in DEBOUNCE_CMD, together with the Pressed. -/
theorem unreadFlagFollowsPresses : Obligations.UnreadFlagFollowsPresses := by
  intro i s t h
  cases i with
  | mark d => cases h; split <;> simp [Output.quiet]
  | space d =>
    rw [if_neg (by simp)]
    cases execSpace_effect h with
    | counts | shifts => simp [Output.quiet]
    | completes => exact debounceCmd_hasUnreadPress _ rfl
    | repeats => simp [debounceRepeat_eq, resync, Output.quiet]
  | tick =>
    rcases execTick_cases s with ⟨_, _, hx⟩ | ⟨_, hx⟩ <;> cases hx.symm.trans h <;>
      simp [announce, record, Output.quiet]
  | attach p src =>
    rcases execAttach_cases p src s with ⟨_, hx⟩ | ⟨_, hx⟩ <;> cases hx.symm.trans h <;>
      simp [answer]
  | subscribe a hh b =>
    rcases execSubscribe_cases a hh b s with ⟨_, hx⟩ | ⟨_, _, _, hx⟩ | ⟨_, _, _, hx⟩ <;>
      cases hx.symm.trans h <;> simp [answer]
  | buttonCode b =>
    rcases execButtonCode_cases b s with ⟨_, hx⟩ | ⟨_, _, hx⟩ <;> cases hx.symm.trans h <;>
      simp [answer]
  | wasPressed => cases h; rfl
  | currentButton | readStatus => cases h; simp [Output.quiet]

/-! ### The command register -/

/-- A TICK leaves the accumulator alone. -/
theorem execTick_accumulator {s t : State} (h : exec .tick s = .next t) :
    t.bitsReceived = s.bitsReceived ∧ t.commandBits = s.commandBits := by
  rcases execTick_cases s with ⟨_, _, hx⟩ | ⟨_, hx⟩ <;> cases hx.symm.trans h <;> exact ⟨rfl, rfl⟩

/-- Settles O46: of the effects of a SPACE only the two of the command window touch the register. -/
theorem commandBitsChangeOnlyInTheirWindow : Obligations.CommandBitsChangeOnlyInTheirWindow := by
  intro i s t h hne
  rcases instr_space_or_tick_or_other i with ⟨d, rfl⟩ | rfl | ⟨hs, ht⟩
  · refine ⟨⟨d, rfl⟩, ?_⟩
    cases execSpace_effect h with
    | counts => exact absurd rfl hne
    | shifts b h17 h23 =>
      have hn := nextCount_toNat s.bitsReceived
      simp only
      omega
    | completes b h23 => simp [h23]
    | repeats => exact absurd (by simp [debounceRepeat_eq, resync]) hne
  · exact absurd (execTick_accumulator h).2 hne
  · exact absurd (exec_pipelineRests hs ht h).command hne

end Sys2Proof.Machine

/-! PROOFS. One step as one transaction, and the Debounce & Repeat Engine over any number of steps
(spec/10_state.md R38, spec/41_debounce_repeat.md R154). -/

namespace Sys2Proof.Machine

/-! ### One step as one transaction -/

/-- Taking an arrival moves the run and the choices only. -/
def SameMachine (s u : State) : Prop :=
  u = { s with time := u.time, trace := u.trace, picks := u.picks, ties := u.ties }

/-- The scheduler offers a transaction only once attached (R148). -/
theorem attached_of_scheduler_arrival {s : State} {a : Arrival} (ha : a ∈ arrivals s)
    (hsrc : a.source = .scheduler) : s.attached = true := by
  rcases (mem_arrivals_iff s a).1 ha with h | h | h
  · obtain ⟨x, _, rfl⟩ := portArrival_eq_some h
    cases hsrc
  · obtain ⟨x, _, rfl⟩ := portArrival_eq_some h
    cases hsrc
  · exact (tickArrival_eq_some h).1

/-- A step runs one instruction, TICK only once attached, or raises IllegalTransaction (R60, R87, R148). -/
theorem step_transaction {s t : State} (h : step s = .next t) :
    ∃ u, SameMachine s u ∧
      ((∃ i, (i = .tick → u.attached = true) ∧ exec i u = .next t) ∨
        ∃ src, t = u.raiseIllegal src) := by
  obtain ⟨-, a, s', harb, hperf⟩ := step_next h
  obtain ⟨hready, hs'⟩ := arbitrate_some harb
  have hattached : a.source = .scheduler → s'.attached = true := fun hsrc => by
    rw [hs']
    exact attached_of_scheduler_arrival ((mem_ready_iff s a).1 hready).1 hsrc
  refine ⟨accept a s', by rw [hs']; rfl, ?_⟩
  rcases perform_cases a.source a.word (accept a s') with ⟨i, -, hsrc, hx⟩ | ⟨-, hx⟩
  · exact .inl ⟨i, fun hi => hattached (by rw [← hsrc, hi]; rfl), hx.symm.trans hperf⟩
  · exact .inr ⟨a.source, by cases hx.symm.trans hperf; rfl⟩

/-! ### The engine -/

/-- The release that a press or a TICK announces: of the held code, if there is one (R141, R145). -/
def releaseRecords (s : State) : List EventRecord :=
  if s.held then [record s.subTable .released s.heldCode] else []

/-- What a transaction can do to the engine. -/
inductive EngineMove (s t : State) : Prop
  /-- Nothing, or the held code again. -/
  | stays (silent : t.out.events = []) (active : t.activeCommand = s.activeCommand)
      (last : t.lastCommand = s.lastCommand ∨ t.lastCommand = s.activeCommand)
  /-- The press of a code, after the release of what was held (R141). -/
  | presses (c : Code)
      (events : t.out.events = releaseRecords s ++ [record s.subTable .pressed c])
      (active : t.activeCommand = wireCode c) (last : t.lastCommand = wireCode c)
  /-- The release of the held code (R145). -/
  | releases (events : t.out.events = releaseRecords s) (active : t.activeCommand = noneCode)
      (last : t.lastCommand = s.lastCommand)

theorem PipelineRests.engineMove {s t : State} (h : PipelineRests s t) : EngineMove s t :=
  .stays h.silent h.active (.inl h.last)

/-- DEBOUNCE_CMD, from the state `u` in which the accumulator of `s` has moved. -/
theorem debounceCmd_engineMove {s u : State} (c : Code)
    (hu : u = { s.quiet with commandBits := u.commandBits, bitsReceived := u.bitsReceived }) :
    EngineMove s (debounceCmd c u) := by
  have hactive : u.activeCommand = s.activeCommand := by rw [hu]; rfl
  have htable : u.subTable = s.subTable := by rw [hu]; rfl
  have hsilent : u.out.events = [] := by rw [hu]; rfl
  rcases debounceCmd_cases c u with ⟨hidle, hx⟩ | ⟨hheld, -, hx⟩ | ⟨hsame, hx⟩ <;> rw [hx]
  · have hr : releaseRecords s = [] := by simp [releaseRecords, State.held, ← hactive, hidle]
    exact .presses c (by simp [hr, hsilent, htable]) rfl rfl
  · have hr : releaseRecords s = [record u.subTable .released u.heldCode] := by
      simp [releaseRecords, State.held, State.heldCode, ← hactive, htable, hheld]
    exact .presses c (by simp [hr, hsilent, htable]) rfl rfl
  · exact .stays hsilent hactive (.inr (hsame.symm.trans hactive))

theorem execSpace_engineMove {s t : State} {d : Dur} (h : exec (.space d) s = .next t) :
    EngineMove s t := by
  cases execSpace_effect h with
  | counts | shifts => exact .stays rfl rfl (.inl rfl)
  | completes => exact debounceCmd_engineMove _ rfl
  | repeats => rw [debounceRepeat_eq]; exact .stays rfl rfl (.inl rfl)

theorem execTick_engineMove {s t : State} (h : exec .tick s = .next t) : EngineMove s t := by
  rcases execTick_cases s with ⟨hheld, -, hx⟩ | ⟨-, hx⟩ <;> cases hx.symm.trans h
  · exact .releases (by simp [announce, releaseRecords, hheld]) rfl rfl
  · exact .stays rfl rfl (.inl rfl)

theorem exec_engineMove {i : Instr} {s t : State} (h : exec i s = .next t) : EngineMove s t := by
  rcases instr_space_or_tick_or_other i with ⟨d, rfl⟩ | rfl | ⟨hs, ht⟩
  · exact execSpace_engineMove h
  · exact execTick_engineMove h
  · exact (exec_pipelineRests hs ht h).engineMove

theorem EngineMove.of_sameMachine {s u t : State} (hu : SameMachine s u) (h : EngineMove u t) :
    EngineMove s t := by
  rw [hu] at h
  cases h with
  | stays silent active last => exact .stays silent active last
  | presses c events active last => exact .presses c events active last
  | releases events active last => exact .releases events active last

theorem step_engineMove {s t : State} (h : step s = .next t) : EngineMove s t := by
  obtain ⟨u, hu, ⟨i, -, hi⟩ | ⟨src, rfl⟩⟩ := step_transaction h
  · exact (exec_engineMove hi).of_sameMachine hu
  · exact (raiseIllegal_pipelineRests src u).engineMove.of_sameMachine hu

/-! ### The event history -/

theorem replay_append {held mid : Code9} {xs : List EventRecord} (ys : List EventRecord)
    (h : replay held xs = some mid) : replay held (xs ++ ys) = replay mid ys := by
  induction xs generalizing held with
  | nil => cases h; rfl
  | cons e es ih =>
    simp only [replay, List.cons_append] at h ⊢
    split at h <;> split at h
    · rw [if_pos ‹_›]; exact ih h
    · cases h
    · rw [if_pos ‹_›]; exact ih h
    · cases h

/-- Releasing what is held, if anything is, leaves nothing held. -/
theorem replay_releaseRecords {s : State} (hs : isNoneOrWire s.activeCommand = true) :
    replay s.activeCommand (releaseRecords s) = some noneCode := by
  by_cases hheld : s.activeCommand = noneCode
  · simp [releaseRecords, (not_held_iff s).2 hheld, hheld, replay]
  · have hcode : wireCode s.heldCode = s.activeCommand := wireCode_of_held _ hs hheld
    simp [releaseRecords, (held_iff s).2 hheld, record, replay, hcode]

/-- The events of one move lead from the code held before to the code held after (R38). -/
theorem EngineMove.replay_eq {s t : State} (hs : isNoneOrWire s.activeCommand = true)
    (h : EngineMove s t) : replay s.activeCommand t.out.events = some t.activeCommand := by
  cases h with
  | stays silent active => rw [silent, active]; rfl
  | presses c events active =>
    rw [events, replay_append _ (replay_releaseRecords hs), active]
    rfl
  | releases events active => rw [events, active]; exact replay_releaseRecords hs

theorem EngineMove.keeps_isNoneOrWire {s t : State} (hs : isNoneOrWire s.activeCommand = true)
    (h : EngineMove s t) : isNoneOrWire t.activeCommand = true := by
  cases h with
  | stays _ active => rw [active]; exact hs
  | presses c _ active => rw [active]; exact isNoneOrWire_wireCode c
  | releases _ active => rw [active]; rfl

/-- A run of one step more: its first step, then the rest. -/
theorem runSteps_succ {n : Nat} {s t : State} {evs : List EventRecord}
    (h : runSteps (n + 1) s = some (t, evs)) :
    ∃ m rest, step s = .next m ∧ runSteps n m = some (t, rest) ∧ evs = m.out.events ++ rest := by
  simp only [runSteps] at h
  split at h
  next m hm =>
    simp only [Option.map_eq_some_iff, Prod.mk.injEq] at h
    obtain ⟨⟨_, rest⟩, hrun, rfl, rfl⟩ := h
    exact ⟨m, rest, hm, hrun, rfl⟩
  · cases h
  · cases h

/-- Settles O49, by induction on the number of steps: the events of each step lead from the code held
before it to the code held after it. -/
theorem eventHistoryAgreesWithHeldCode : Obligations.EventHistoryAgreesWithHeldCode := by
  intro n
  induction n with
  | zero =>
    intro s t evs _ hrun
    cases hrun
    rfl
  | succ n ih =>
    intro s t evs hs hrun
    obtain ⟨m, rest, hstep, hrest, rfl⟩ := runSteps_succ hrun
    have hmove := step_engineMove hstep
    rw [replay_append rest (hmove.replay_eq hs)]
    exact ih m t rest (hmove.keeps_isNoneOrWire hs) hrest

end Sys2Proof.Machine

/-! PROOFS. The subscription table and the register invariant over every step (spec/10_state.md R30, R33,
R34, spec/20_memory.md R54, spec/70_reset_and_hazards.md R232). -/

namespace Sys2Proof.Machine

/-! ### The subscription table -/

/-- The part of `RegistersOk` that speaks of the subscription table (R33, R34). -/
structure TableOk (cfg : Config) (count : BitVec 8) (table : List SubEntry) : Prop where
  length : table.length = cfg.subSlots
  count_le : count.toNat ≤ cfg.subSlots
  valid : ∀ i e, table[i]? = some e → e.valid = decide (i < count.toNat)
  empty : ∀ e ∈ table, e.valid = false → e = SubEntry.empty
  any_no_code : ∀ e ∈ table, e.any = true → e.code = 0

theorem RegistersOk.tableOk {s : State} (h : RegistersOk s) : TableOk s.cfg s.subCount s.subTable :=
  ⟨h.table_length, h.count_le, h.slot_valid, h.slot_empty, h.any_no_code⟩

/-- What a transaction can do to the table: nothing, or one more entry in the first free slot (R172). -/
inductive TableMove (s t : State) : Prop
  | stays (table : t.subTable = s.subTable) (count : t.subCount = s.subCount)
  | stores (e : SubEntry) (valid : e.valid = true) (any_no_code : e.any = true → e.code = 0)
      (free : s.subCount.toNat ≠ s.cfg.subSlots)
      (table : t.subTable = s.subTable.set s.subCount.toNat e) (count : t.subCount = s.subCount + 1)

theorem exec_tableMove {i : Instr} {s t : State} (h : exec i s = .next t) : TableMove s t := by
  cases i with
  | mark d => cases h; split <;> exact .stays rfl rfl
  | space d =>
    cases execSpace_effect h with
    | counts | shifts => exact .stays rfl rfl
    | completes => exact .stays (debounceCmd_subTable _ _) (debounceCmd_subCount _ _)
    | repeats => rw [debounceRepeat_eq]; exact .stays rfl rfl
  | tick =>
    rcases execTick_cases s with ⟨_, _, hx⟩ | ⟨_, hx⟩ <;> cases hx.symm.trans h <;>
      exact .stays rfl rfl
  | attach p src =>
    rcases execAttach_cases p src s with ⟨_, hx⟩ | ⟨_, hx⟩ <;> cases hx.symm.trans h <;>
      exact .stays rfl rfl
  | subscribe a hh b =>
    rcases execSubscribe_cases a hh b s with ⟨_, hx⟩ | ⟨_, _, _, hx⟩ | ⟨e, he, hfree, hx⟩ <;>
      cases hx.symm.trans h
    · exact .stays rfl rfl
    · exact .stays rfl rfl
    · obtain ⟨hvalid, hany⟩ := subEntry_shape he
      exact .stores e hvalid hany hfree rfl rfl
  | buttonCode b =>
    rcases execButtonCode_cases b s with ⟨_, hx⟩ | ⟨_, _, hx⟩ <;> cases hx.symm.trans h <;>
      exact .stays rfl rfl
  | currentButton | wasPressed | readStatus => cases h; exact .stays rfl rfl

theorem TableMove.of_sameMachine {s u t : State} (hu : SameMachine s u) (h : TableMove u t) :
    TableMove s t := by
  rw [hu] at h
  cases h with
  | stays table count => exact .stays table count
  | stores e valid any_no_code free table count => exact .stores e valid any_no_code free table count

theorem step_tableMove {s t : State} (h : step s = .next t) : TableMove s t := by
  obtain ⟨u, hu, ⟨i, -, hi⟩ | ⟨src, rfl⟩⟩ := step_transaction h
  · exact (exec_tableMove hi).of_sameMachine hu
  · exact (TableMove.stays rfl rfl : TableMove u (u.raiseIllegal src)).of_sameMachine hu

/-- Below 255 slots the 8-bit count of a table with a free slot does not wrap. -/
theorem TableOk.count_succ {cfg : Config} {n : BitVec 8} {table : List SubEntry}
    (h : TableOk cfg n table) (hw : cfg.wf = true) (hfree : n.toNat ≠ cfg.subSlots) :
    (n + 1).toNat = n.toNat + 1 := by
  have hslots := Config.wf_slots hw
  have hle := h.count_le
  rw [BitVec.toNat_add]
  change (n.toNat + 1) % 256 = n.toNat + 1
  omega

/-- Storing a valid entry in the first free slot keeps the table in order. -/
theorem TableOk.store {cfg : Config} {n : BitVec 8} {table : List SubEntry} {e : SubEntry}
    (h : TableOk cfg n table) (hw : cfg.wf = true) (hfree : n.toNat ≠ cfg.subSlots)
    (hvalid : e.valid = true) (hany : e.any = true → e.code = 0) :
    TableOk cfg (n + 1) (table.set n.toNat e) := by
  have hsucc := h.count_succ hw hfree
  have hle := h.count_le
  refine ⟨by rw [List.length_set, h.length], by omega, ?_, ?_, ?_⟩
  · intro i x hx
    rw [hsucc]
    rcases eq_or_ne n.toNat i with rfl | hne
    · rw [List.getElem?_set_self (by rw [h.length]; omega)] at hx
      cases hx
      simp [hvalid]
    · rw [List.getElem?_set_ne hne] at hx
      rw [h.valid i x hx]
      exact decide_eq_decide.2 (by omega)
  · intro x hx hx'
    rcases List.mem_or_eq_of_mem_set hx with hx | rfl
    · exact h.empty x hx hx'
    · simp [hvalid] at hx'
  · intro x hx
    rcases List.mem_or_eq_of_mem_set hx with hx | rfl
    · exact h.any_no_code x hx
    · exact hany

theorem TableMove.keeps_tableOk {s t : State} (hm : TableMove s t) (hw : s.cfg.wf = true)
    (h : TableOk s.cfg s.subCount s.subTable) : TableOk s.cfg t.subCount t.subTable := by
  cases hm with
  | stays table count => rw [table, count]; exact h
  | stores e valid any_no_code free table count =>
    rw [table, count]
    exact h.store hw free valid any_no_code

/-- Settles O45: a SUBSCRIBE writes the slot at `sub_count`, above every written one. -/
theorem subscriptionsAreNeverLost : Obligations.SubscriptionsAreNeverLost := by
  intro s t hs hstep
  cases step_tableMove hstep with
  | stays table count => simp [table, count]
  | stores e _ _ free table count =>
    rw [table, count, hs.tableOk.count_succ hs.cfg_wf free]
    exact ⟨Nat.le_succ _, fun i hi => List.getElem?_set_ne (Nat.ne_of_gt hi)⟩

/-! ### The engine's codes -/

/-- The part of `RegistersOk` that speaks of the engine's two codes (R30). -/
structure CodesOk (s : State) : Prop where
  active_ok : isNoneOrWire s.activeCommand = true
  last_ok : isNoneOrWire s.lastCommand = true
  held_is_last : s.activeCommand ≠ noneCode → s.lastCommand = s.activeCommand

theorem RegistersOk.codesOk {s : State} (h : RegistersOk s) : CodesOk s :=
  ⟨h.active_ok, h.last_ok, fun hn => h.held_is_last ((held_iff s).2 hn)⟩

theorem EngineMove.keeps_codesOk {s t : State} (hm : EngineMove s t) (h : CodesOk s) : CodesOk t := by
  refine ⟨hm.keeps_isNoneOrWire h.active_ok, ?_, ?_⟩
  · cases hm with
    | stays _ _ last =>
      rcases last with last | last <;> rw [last]
      · exact h.last_ok
      · exact h.active_ok
    | presses c _ _ last => rw [last]; exact isNoneOrWire_wireCode c
    | releases _ _ last => rw [last]; exact h.last_ok
  · intro hheld
    cases hm with
    | stays _ active last =>
      rw [active] at hheld ⊢
      exact last.elim (fun hl => hl.trans (h.held_is_last hheld)) id
    | presses c _ active last => rw [active, last]
    | releases _ active _ => exact absurd active hheld

/-! ### Before the first ATTACH -/

theorem execSpace_attached {s t : State} {d : Dur} (h : exec (.space d) s = .next t) :
    t.attached = s.attached := by
  cases execSpace_effect h with
  | counts | shifts => rfl
  | completes => rw [debounceCmd_attached]; rfl
  | repeats => rw [debounceRepeat_eq]; rfl

/-- Until an ATTACH, and without a TICK, the decoder registers rest (R134, R232). -/
theorem exec_keeps_detachedOk {i : Instr} {s t : State} (hi : i ≠ .tick) (h : exec i s = .next t)
    (hs : s.attached = false → DetachedOk s) (ht : t.attached = false) : DetachedOk t := by
  cases i with
  | mark d =>
    cases h
    split at ht
    next ha => exact absurd ht (by simp [ha])
    next ha => rw [if_neg ha]; exact { hs ht with }
  | space d =>
    have hst : s.attached = false := (execSpace_attached h).symm.trans ht
    rcases execSpace_cases s d with ⟨_, hx⟩ | ⟨ha, _⟩ | ⟨ha, _⟩ | ⟨ha, _⟩
    · cases hx.symm.trans h
      exact { hs hst with }
    all_goals simp [hst] at ha
  | tick => exact absurd rfl hi
  | attach p src =>
    rcases execAttach_cases p src s with ⟨_, hx⟩ | ⟨_, hx⟩ <;> cases hx.symm.trans h
    · exact { hs ht with }
    · cases ht
  | subscribe a hh b =>
    rcases execSubscribe_cases a hh b s with ⟨_, hx⟩ | ⟨_, _, _, hx⟩ | ⟨_, _, _, hx⟩ <;>
      cases hx.symm.trans h <;> exact { hs ht with }
  | buttonCode b =>
    rcases execButtonCode_cases b s with ⟨_, hx⟩ | ⟨_, _, hx⟩ <;> cases hx.symm.trans h <;>
      exact { hs ht with }
  | wasPressed =>
    cases h
    exact { hs ht with unread_clear := rfl }
  | currentButton | readStatus => cases h; exact { hs ht with }

theorem execTick_attached {s t : State} (h : exec .tick s = .next t) : t.attached = s.attached := by
  rcases execTick_cases s with ⟨_, _, hx⟩ | ⟨_, hx⟩ <;> cases hx.symm.trans h <;> rfl

/-- A step never disturbs the decoder registers of a detached machine: the scheduler issues no TICK
there (R148). -/
theorem step_keeps_detachedOk {s t : State} (h : step s = .next t)
    (hs : s.attached = false → DetachedOk s) (ht : t.attached = false) : DetachedOk t := by
  obtain ⟨u, hu, hrun⟩ := step_transaction h
  have hus : u.attached = false → DetachedOk u := by
    rw [hu]
    exact fun ha => { hs ha with }
  rcases hrun with ⟨i, htick, hx⟩ | ⟨src, rfl⟩
  · refine exec_keeps_detachedOk (fun hi => ?_) hx hus ht
    subst hi
    exact absurd ((execTick_attached hx).trans (htick rfl)) (by simp [ht])
  · exact { hus ht with }

/-! ### The register invariant -/

/-- The invariant, from its parts. -/
theorem registersOk_of_parts {s : State} (hw : s.cfg.wf = true)
    (ht : TableOk s.cfg s.subCount s.subTable) (hc : CodesOk s)
    (hd : s.attached = false → DetachedOk s) : RegistersOk s where
  cfg_wf := hw
  table_length := ht.length
  count_le := ht.count_le
  slot_valid := ht.valid
  slot_empty := ht.empty
  any_no_code := ht.any_no_code
  active_ok := hc.active_ok
  last_ok := hc.last_ok
  held_is_last := fun hheld => hc.held_is_last ((held_iff s).1 hheld)
  detached_ok := hd

theorem step_keeps_cfg {s t : State} (h : step s = .next t) : t.cfg = s.cfg := by
  obtain ⟨u, hu, ⟨i, -, hi⟩ | ⟨src, rfl⟩⟩ := step_transaction h
  · rw [(exec_keeps_run hi).1, hu]
  · rw [State.raiseIllegal_cfg, hu]

/-- Settles O31, part by part: the table, the engine's codes, and the registers before the first
ATTACH. -/
theorem stepKeepsRegistersOk : Obligations.StepKeepsRegistersOk := by
  intro s t hs hstep
  have hcfg := step_keeps_cfg hstep
  have htable := (step_tableMove hstep).keeps_tableOk hs.cfg_wf hs.tableOk
  have hcodes := (step_engineMove hstep).keeps_codesOk hs.codesOk
  exact registersOk_of_parts (hcfg ▸ hs.cfg_wf) (hcfg ▸ htable) hcodes
    (step_keeps_detachedOk hstep hs.detached_ok)

end Sys2Proof.Machine

/-! PROOFS. The two registers that are hidden at times: `command_bits` outside a byte in progress
(spec/10_state.md R27) and `repeat_deadline` while Idle (R31). Each is followed through the pipeline,
operation by operation; the other instructions read neither. -/

namespace Sys2Proof.Machine

/-- The state with other contents of `command_bits`. -/
def State.withCommandBits (bits : Code) (s : State) : State := { s with commandBits := bits }

/-- The state with another `repeat_deadline`. -/
def State.withDeadline (deadline : Time) (s : State) : State := { s with repeatDeadline := deadline }

/-- No instruction outside the pipeline reads or writes either register. -/
theorem exec_withCommandBits_withDeadline {i : Instr} {s t : State} (hs : ∀ d, i ≠ .space d)
    (ht : i ≠ .tick) (h : exec i s = .next t) (bits : Code) (deadline : Time) :
    exec i ((s.withCommandBits bits).withDeadline deadline) =
      .next ((t.withCommandBits bits).withDeadline deadline) := by
  cases i with
  | mark d =>
    simp only [exec, execMark] at h ⊢
    split at h
    next ha => cases h; exact congrArg Host.Outcome.next (if_pos ha)
    next ha => cases h; exact congrArg Host.Outcome.next (if_neg ha)
  | space d => exact absurd rfl (hs d)
  | tick => exact absurd rfl ht
  | attach p src =>
    simp only [exec, execAttach] at h ⊢
    split at h
    next ha => cases h; exact if_pos ha
    next ha => cases h; exact if_neg ha
  | subscribe a hh b =>
    simp only [exec, execSubscribe, State.withCommandBits, State.withDeadline] at h ⊢
    split at h
    · cases h; rfl
    · split at h
      next hf => cases h; exact if_pos hf
      next hf => cases h; exact if_neg hf
  | buttonCode b =>
    simp only [exec, execButtonCode, State.withCommandBits, State.withDeadline] at h ⊢
    split at h <;> cases h <;> rfl
  | currentButton | wasPressed | readStatus => cases h; rfl

theorem exec_withCommandBits {i : Instr} {s t : State} (hs : ∀ d, i ≠ .space d) (ht : i ≠ .tick)
    (h : exec i s = .next t) (bits : Code) :
    exec i (s.withCommandBits bits) = .next (t.withCommandBits bits) := by
  have hkeep : (t.withCommandBits bits).withDeadline s.repeatDeadline = t.withCommandBits bits := by
    rw [← (exec_pipelineRests hs ht h).deadline]
    rfl
  rw [← hkeep]
  exact exec_withCommandBits_withDeadline hs ht h bits s.repeatDeadline

theorem exec_withDeadline {i : Instr} {s t : State} (hs : ∀ d, i ≠ .space d) (ht : i ≠ .tick)
    (h : exec i s = .next t) (deadline : Time) :
    exec i (s.withDeadline deadline) = .next (t.withDeadline deadline) := by
  have hkeep : t.withCommandBits s.commandBits = t := by
    rw [← (exec_pipelineRests hs ht h).command]
    rfl
  conv_rhs => rw [← hkeep]
  exact exec_withCommandBits_withDeadline hs ht h s.commandBits deadline

/-! ### `command_bits` in the accumulator -/

/-- Outside the positions 17..23 the register does not matter at all. -/
theorem agreeButCommandBits_of_counter {s : State} (bits : Code)
    (h : s.bitsReceived.toNat ≤ 16 ∨ 24 ≤ s.bitsReceived.toNat) :
    AgreeButCommandBits s (s.withCommandBits bits) :=
  ⟨rfl, fun h16 h24 => by omega⟩

/-- Agreement is a property of the counter and the two registers. -/
theorem AgreeButCommandBits.of_accumulator {s s' t : State} (h : AgreeButCommandBits s s')
    (hbits : t.bitsReceived = s.bitsReceived) (hcommand : t.commandBits = s.commandBits) :
    AgreeButCommandBits t (t.withCommandBits s'.commandBits) :=
  ⟨rfl, by rw [hbits, hcommand]; exact h.2⟩

/-- A shift moves the bits that agree up by one, and the new bit joins them. -/
theorem shiftIn_mod {m : Nat} (hm : m ≤ 7) {c c' : Code} (b : Bool)
    (h : c.toNat % 2 ^ m = c'.toNat % 2 ^ m) :
    (shiftIn c b).toNat % 2 ^ (m + 1) = (shiftIn c' b).toNat % 2 ^ (m + 1) := by
  have hdvd : 2 ^ (m + 1) ∣ 256 := pow_dvd_pow 2 (show m + 1 ≤ 8 by omega)
  rw [shiftIn_toNat, shiftIn_toNat, Nat.mod_mod_of_dvd _ hdvd, Nat.mod_mod_of_dvd _ hdvd, pow_succ]
  exact Nat.ModEq.add_right _ (Nat.ModEq.mul_right' 2 h)

/-- In the command window, the bits of the byte in progress agree after a shift. -/
theorem AgreeButCommandBits.shiftIn_mod {s s' : State} (h : AgreeButCommandBits s s') (b : Bool)
    (h16 : 16 ≤ s.bitsReceived.toNat) (h24 : s.bitsReceived.toNat < 24) :
    (shiftIn s.commandBits b).toNat % 2 ^ (s.bitsReceived.toNat + 1 - 16) =
      (shiftIn s'.commandBits b).toNat % 2 ^ (s.bitsReceived.toNat + 1 - 16) := by
  rw [show s.bitsReceived.toNat + 1 - 16 = (s.bitsReceived.toNat - 16) + 1 by omega]
  refine Machine.shiftIn_mod (by omega) b ?_
  rcases Nat.eq_or_lt_of_le h16 with heq | hlt
  · simp [← heq, Nat.mod_one]
  · exact h.2 hlt h24

/-- The completed byte is made of the bits that agree: nothing older is left in it. -/
theorem AgreeButCommandBits.shiftIn_eq {s s' : State} (h : AgreeButCommandBits s s') (b : Bool)
    (h23 : s.bitsReceived = 23#6) : shiftIn s.commandBits b = shiftIn s'.commandBits b := by
  have h8 := h.shiftIn_mod b (by simp [h23]) (by simp [h23])
  rw [show s.bitsReceived.toNat + 1 - 16 = 8 by rw [h23]; rfl] at h8
  apply BitVec.eq_of_toNat_eq
  rwa [Nat.mod_eq_of_lt (BitVec.isLt _), Nat.mod_eq_of_lt (BitVec.isLt _)] at h8

theorem addressCount_toNat_le {n : BitVec 6} (p : Protocol) (b : Bool) (hn : n.toNat ≤ 8) :
    (addressCount p b n).toNat ≤ 9 := by
  unfold addressCount
  split
  · exact Nat.le_refl 9
  · omega

/-- PUSH_BIT, window by window: only the command window looks at the register. -/
theorem AgreeButCommandBits.pushBit {s s' : State} (h : AgreeButCommandBits s s') (b : Bool) :
    (pushBit b s).1 = (pushBit b s').1 ∧ AgreeButCommandBits (pushBit b s).2 (pushBit b s').2 := by
  have hn := nextCount_toNat s.bitsReceived
  have hmod := h.shiftIn_mod b
  have heq := h.shiftIn_eq b
  rw [h.1]
  simp only [Machine.pushBit, addrLast, invAddrLast, cmdLast]
  split
  next h8 =>
    have := addressCount_toNat_le s.protocol b h8
    exact ⟨rfl, agreeButCommandBits_of_counter _ (.inl (by simp only; omega))⟩
  split
  next h16 => exact ⟨rfl, agreeButCommandBits_of_counter _ (.inl h16)⟩
  split
  next h16 h24 =>
    have hsucc : (nextCount s.bitsReceived).toNat = s.bitsReceived.toNat + 1 := by omega
    refine ⟨rfl, rfl, fun _ _ => ?_⟩
    simp only [hsucc]
    exact hmod (by omega) (by omega)
  split
  next h24 =>
    have h23 : s.bitsReceived.toNat = 23 := by omega
    rw [heq (BitVec.eq_of_toNat_eq h23)]
    exact ⟨rfl, agreeButCommandBits_of_counter _ (.inr (Nat.le_of_eq h24.symm))⟩
  next hlt hne => exact ⟨rfl, agreeButCommandBits_of_counter _ (.inr (by simp only; omega))⟩

theorem AgreeButCommandBits.resync {s s' : State} (h : AgreeButCommandBits s s') :
    AgreeButCommandBits (resync s) (resync s') := by
  rw [h.1]
  exact agreeButCommandBits_of_counter _ (.inl (Nat.zero_le _))

theorem AgreeButCommandBits.resolve {s s' : State} (h : AgreeButCommandBits s s') (d : CombinedDur) :
    (resolve d s).1 = (resolve d s').1 ∧ AgreeButCommandBits (resolve d s).2 (resolve d s').2 := by
  have hcfg : s'.cfg = s.cfg := by rw [h.1]
  simp only [Machine.resolve, hcfg]
  cases classify s.cfg d with
  | bit0 => exact ⟨congrArg resolvedOf (h.pushBit false).1, (h.pushBit false).2⟩
  | bit1 => exact ⟨congrArg resolvedOf (h.pushBit true).1, (h.pushBit true).2⟩
  | repeatSym | frameStart | incomplete => exact ⟨rfl, h.resync⟩

/-! ### `command_bits` in the engine and the tick, which never look at it -/

/-- DEBOUNCE_CMD of a code that is not the held one (R141). -/
theorem debounceCmd_of_ne {c : Code} {s : State} (h : s.activeCommand ≠ wireCode c) :
    debounceCmd c s = pressNew c { s with lastCommand := wireCode c } := if_pos h

/-- DEBOUNCE_CMD of the held code (R142). -/
theorem debounceCmd_of_eq {c : Code} {s : State} (h : s.activeCommand = wireCode c) :
    debounceCmd c s =
      if s.cfg.sameCodeRefresh then { s with lastCommand := wireCode c }.refresh
      else { s with lastCommand := wireCode c } := if_neg (not_not_intro h)

theorem releaseHeld_withCommandBits (bits : Code) (s : State) :
    releaseHeld (s.withCommandBits bits) = (releaseHeld s).withCommandBits bits :=
  (apply_ite (State.withCommandBits bits) (s.held = true) (s.emit .released s.heldCode) s).symm

theorem pressNew_withCommandBits (c bits : Code) (s : State) :
    pressNew c (s.withCommandBits bits) = (pressNew c s).withCommandBits bits := by
  unfold pressNew
  rw [releaseHeld_withCommandBits]
  rfl

theorem debounceCmd_withCommandBits (c bits : Code) (s : State) :
    debounceCmd c (s.withCommandBits bits) = (debounceCmd c s).withCommandBits bits := by
  by_cases h : s.activeCommand = wireCode c
  · rw [debounceCmd_of_eq h, debounceCmd_of_eq (s := s.withCommandBits bits) h]
    exact (apply_ite (State.withCommandBits bits) (s.cfg.sameCodeRefresh = true)
      { s with lastCommand := wireCode c }.refresh { s with lastCommand := wireCode c }).symm
  · rw [debounceCmd_of_ne h, debounceCmd_of_ne (s := s.withCommandBits bits) h]
    exact pressNew_withCommandBits c bits { s with lastCommand := wireCode c }

theorem tickRelease_withCommandBits (bits : Code) (s : State) :
    tickRelease (s.withCommandBits bits) = (tickRelease s).withCommandBits bits :=
  (apply_ite (State.withCommandBits bits) (s.held = true ∧ after s.now s.repeatDeadline = true)
    { s.emit .released s.heldCode with activeCommand := noneCode } s).symm

theorem execTick_withCommandBits {s t : State} (h : exec .tick s = .next t) (bits : Code) :
    exec .tick (s.withCommandBits bits) = .next (t.withCommandBits bits) := by
  cases h
  exact congrArg (fun u => Host.Outcome.next (scheduleTick u))
    (tickRelease_withCommandBits bits s.quiet)

/-- What reaches the engine moves it in the same way, and leaves the accumulator. -/
theorem AgreeButCommandBits.deliver {s s' : State} (h : AgreeButCommandBits s s') (r : Resolved) :
    AgreeButCommandBits (deliver r s) (deliver r s') := by
  have hs' : s' = s.withCommandBits s'.commandBits := h.1
  cases r with
  | nothing => exact h
  | repeatSentinel =>
    simp only [Machine.deliver, debounceRepeat_eq]
    rw [hs']
    exact h.of_accumulator rfl rfl
  | cmd c =>
    simp only [Machine.deliver]
    rw [hs', debounceCmd_withCommandBits]
    exact h.of_accumulator (debounceCmd_bitsReceived c s) (debounceCmd_commandBits c s)

theorem AgreeButCommandBits.quiet {s s' : State} (h : AgreeButCommandBits s s') :
    AgreeButCommandBits s.quiet s'.quiet := by
  rw [h.1]
  exact h.of_accumulator rfl rfl

theorem AgreeButCommandBits.execSpace {s s' t : State} {d : Dur} (h : AgreeButCommandBits s s')
    (hx : exec (.space d) s = .next t) :
    ∃ t', exec (.space d) s' = .next t' ∧ AgreeButCommandBits t t' := by
  have hattached : s'.attached = s.attached := by rw [h.1]
  have hmark : s'.markLatch = s.markLatch := by rw [h.1]
  simp only [exec, Machine.execSpace, hattached, hmark] at hx ⊢
  split at hx
  next ha =>
    cases hx
    obtain ⟨hr, hrest⟩ := h.quiet.resolve (combinedDuration s.markLatch d)
    rw [if_pos ha, ← hr]
    exact ⟨_, rfl, hrest.deliver _⟩
  next ha =>
    cases hx
    exact ⟨_, if_neg ha, h.quiet⟩

/-- Settles O55: only PUSH_BIT reads the register, and by the eighth shift of a byte all that was there
before it is gone. -/
theorem staleCommandBitsAreNeverSeen : Obligations.StaleCommandBitsAreNeverSeen := by
  intro i s s' h
  obtain ⟨t, hx⟩ := exec_next i s
  suffices hagree : ∃ t', exec i s' = .next t' ∧ AgreeButCommandBits t t' by
    obtain ⟨t', hx', hagree⟩ := hagree
    exact ⟨t, t', hx, hx', by rw [hagree.1], hagree⟩
  have hs' : s' = s.withCommandBits s'.commandBits := h.1
  rcases instr_space_or_tick_or_other i with ⟨d, rfl⟩ | rfl | ⟨hs, ht⟩
  · exact h.execSpace hx
  · obtain ⟨hbits, hcommand⟩ := execTick_accumulator hx
    rw [hs']
    exact ⟨_, execTick_withCommandBits hx _, h.of_accumulator hbits hcommand⟩
  · have hrests := exec_pipelineRests hs ht hx
    rw [hs']
    exact ⟨_, exec_withCommandBits hs ht hx _, h.of_accumulator hrests.bits hrests.command⟩

/-! ### `repeat_deadline` -/

theorem AgreeButIdleDeadline.refl (s : State) : AgreeButIdleDeadline s s := ⟨rfl, fun _ => rfl⟩

theorem agreeButIdleDeadline_of_idle {s : State} (h : s.activeCommand = noneCode) (deadline : Time) :
    AgreeButIdleDeadline s (s.withDeadline deadline) :=
  ⟨rfl, fun hheld => absurd h ((held_iff s).1 hheld)⟩

/-- While Held the two states are one; while Idle only the deadline is free. -/
theorem AgreeButIdleDeadline.cases {s s' : State} (h : AgreeButIdleDeadline s s') :
    s' = s ∨ s.activeCommand = noneCode ∧ s' = s.withDeadline s'.repeatDeadline := by
  by_cases hheld : s.held = true
  · left
    rw [h.1, h.2 hheld]
  · exact .inr ⟨(not_held_iff s).1 (by simpa using hheld), h.1⟩

theorem pushBit_withDeadline (b : Bool) (deadline : Time) (s : State) :
    pushBit b (s.withDeadline deadline) = ((pushBit b s).1, (pushBit b s).2.withDeadline deadline) := by
  change _ = Prod.map id (State.withDeadline deadline) (pushBit b s)
  simp only [pushBit, apply_ite (Prod.map id (State.withDeadline deadline)), Prod.map_apply]
  rfl

theorem pushBit_activeCommand (b : Bool) (s : State) :
    (pushBit b s).2.activeCommand = s.activeCommand := by
  rcases pushBit_cases b s with ⟨_, h⟩ | ⟨_, _, h⟩ | ⟨_, _, h⟩ | ⟨_, h⟩ | ⟨_, h⟩ <;> rw [h]

theorem resolve_withDeadline (d : CombinedDur) (deadline : Time) (s : State) :
    resolve d (s.withDeadline deadline) = ((resolve d s).1, (resolve d s).2.withDeadline deadline) := by
  have hcfg : (s.withDeadline deadline).cfg = s.cfg := rfl
  simp only [resolve, pushBit_withDeadline, hcfg]
  cases classify s.cfg d <;> rfl

theorem resolve_activeCommand (d : CombinedDur) (s : State) :
    (resolve d s).2.activeCommand = s.activeCommand := by
  unfold resolve
  split
  · exact pushBit_activeCommand false s
  · exact pushBit_activeCommand true s
  · rfl
  · rfl
  · rfl

theorem releaseHeld_withDeadline (deadline : Time) (s : State) :
    releaseHeld (s.withDeadline deadline) = (releaseHeld s).withDeadline deadline :=
  (apply_ite (State.withDeadline deadline) (s.held = true) (s.emit .released s.heldCode) s).symm

/-- A press writes the deadline, so it does not matter what it was. -/
theorem pressNew_withDeadline (c : Code) (deadline : Time) (s : State) :
    pressNew c (s.withDeadline deadline) = pressNew c s := by
  unfold pressNew
  rw [releaseHeld_withDeadline]
  rfl

/-- From Idle every command is a press. -/
theorem debounceCmd_withDeadline_of_idle (c : Code) (deadline : Time) {s : State}
    (h : s.activeCommand = noneCode) : debounceCmd c (s.withDeadline deadline) = debounceCmd c s := by
  have hne : s.activeCommand ≠ wireCode c := by rw [h]; exact (wireCode_ne_none c).symm
  rw [debounceCmd_of_ne hne, debounceCmd_of_ne (s := s.withDeadline deadline) hne]
  exact pressNew_withDeadline c deadline { s with lastCommand := wireCode c }

theorem debounceRepeat_of_idle {s : State} (h : s.activeCommand = noneCode) :
    debounceRepeat s = s := by
  rw [debounceRepeat, (not_held_iff s).2 h]
  rfl

theorem deliver_withDeadline_of_idle (r : Resolved) (deadline : Time) {s : State}
    (h : s.activeCommand = noneCode) :
    AgreeButIdleDeadline (deliver r s) (deliver r (s.withDeadline deadline)) := by
  cases r with
  | nothing => exact agreeButIdleDeadline_of_idle h deadline
  | repeatSentinel =>
    simp only [deliver]
    rw [debounceRepeat_of_idle h, debounceRepeat_of_idle (s := s.withDeadline deadline) h]
    exact agreeButIdleDeadline_of_idle h deadline
  | cmd c =>
    simp only [deliver, debounceCmd_withDeadline_of_idle c deadline h]
    exact .refl _

theorem execSpace_withDeadline_of_idle {s t : State} {d : Dur} (h : s.activeCommand = noneCode)
    (hx : exec (.space d) s = .next t) (deadline : Time) :
    ∃ t', exec (.space d) (s.withDeadline deadline) = .next t' ∧ AgreeButIdleDeadline t t' := by
  simp only [exec, execSpace] at hx ⊢
  split at hx
  next ha =>
    cases hx
    have hr : resolve (combinedDuration (s.withDeadline deadline).markLatch d)
        (s.withDeadline deadline).quiet = _ :=
      resolve_withDeadline (combinedDuration s.markLatch d) deadline s.quiet
    refine ⟨_, if_pos ha, ?_⟩
    rw [hr]
    exact deliver_withDeadline_of_idle _ deadline ((resolve_activeCommand _ s.quiet).trans h)
  next ha =>
    cases hx
    exact ⟨_, if_neg ha, agreeButIdleDeadline_of_idle (s := s.quiet) h deadline⟩

/-- A TICK while Idle only schedules the next one (R146, R147). -/
theorem execTick_of_idle {s : State} (h : s.activeCommand = noneCode) :
    exec .tick s = .next { s with
      tickDue := s.now + 2 * s.cfg.repeatWindowMs, out := Output.quiet } := by
  have hheld := (not_held_iff s).2 h
  rcases execTick_cases s with ⟨ht, _⟩ | ⟨-, hx⟩
  · rw [hheld] at ht
    cases ht
  · rw [hx, hheld]
    rfl

theorem execTick_withDeadline_of_idle {s t : State} (h : s.activeCommand = noneCode)
    (hx : exec .tick s = .next t) (deadline : Time) :
    t.activeCommand = noneCode ∧ exec .tick (s.withDeadline deadline) = .next (t.withDeadline deadline) := by
  cases (execTick_of_idle h).symm.trans hx
  exact ⟨h, execTick_of_idle (s := s.withDeadline deadline) h⟩

/-- Settles O56: while Held the two states are one; while Idle a TICK and a repeat pass the deadline by,
and a press overwrites it. -/
theorem deadlineIsUnobservableWhileIdle : Obligations.DeadlineIsUnobservableWhileIdle := by
  intro i s s' h
  obtain ⟨t, hx⟩ := exec_next i s
  suffices hagree : ∃ t', exec i s' = .next t' ∧ AgreeButIdleDeadline t t' by
    obtain ⟨t', hx', hagree⟩ := hagree
    exact ⟨t, t', hx, hx', by rw [hagree.1], hagree⟩
  rcases h.cases with rfl | ⟨hidle, hs'⟩
  · exact ⟨t, hx, .refl t⟩
  rw [hs']
  rcases instr_space_or_tick_or_other i with ⟨d, rfl⟩ | rfl | ⟨hs, ht⟩
  · exact execSpace_withDeadline_of_idle hidle hx _
  · obtain ⟨hidle', hx'⟩ := execTick_withDeadline_of_idle hidle hx s'.repeatDeadline
    exact ⟨_, hx', agreeButIdleDeadline_of_idle hidle' _⟩
  · have hrests := exec_pipelineRests hs ht hx
    exact ⟨_, exec_withDeadline hs ht hx _, agreeButIdleDeadline_of_idle (hrests.active.trans hidle) _⟩

end Sys2Proof.Machine

/-! PROOFS. The catalogue ROM: which identifiers have a code (spec/20_memory.md R51 to R53). -/

namespace Sys2Proof.Machine

/-- The identifiers of R51's table. -/
theorem romTable_ids :
    ∀ e ∈ romTable, e.1.toNat ≤ 0x07 ∨ 0x40 ≤ e.1.toNat ∧ e.1.toNat ≤ 0x42 := by
  simp [romTable]

theorem romTable_lookup_eq_none {i : ButtonId} (hmain : 0x07 < i.toNat)
    (hmini : i.toNat < 0x40 ∨ 0x42 < i.toNat) : romTable.lookup i = none := by
  rw [List.lookup_eq_none_iff]
  intro e he
  have hid := romTable_ids e he
  rw [bne_iff_ne]
  rintro rfl
  omega

/-- R51's entries come before the parameter. -/
theorem catRead_of_lookup {i : ButtonId} {c : Code} (cfg : Config) (h : romTable.lookup i = some c) :
    catRead cfg i = some c := by
  simp [catRead, h]

/-- CATALOGUE_EXTRA is not read past 0x7F (R52, R53). -/
theorem catRead_of_reserved (cfg : Config) {i : ButtonId} (h : 0x80 ≤ i.toNat) :
    catRead cfg i = none := by
  have hextra : isExtraId i = false := by
    simp only [isExtraId, Bool.or_eq_false_iff, Bool.and_eq_false_iff, decide_eq_false_iff_not]
    omega
  simp [catRead, romTable_lookup_eq_none (i := i) (by omega) (by omega), hextra]

/-- With an empty CATALOGUE_EXTRA the catalogue is R51's table. -/
theorem catRead_hardware (i : ButtonId) : catRead Config.hardware i = romTable.lookup i := by
  unfold catRead
  cases romTable.lookup i <;> simp [Config.hardware]

/-- Settles O24: the eleven entries are looked up, and every other identifier falls outside their
ranges. -/
theorem catalogueEntries : Obligations.CatalogueEntries := by
  refine ⟨fun cfg => ?_, fun i hlo hhi => ?_, fun i hlo hhi => ?_⟩
  · refine ⟨?_, ?_, ?_, ?_, ?_, ?_, ?_, ?_, ?_, ?_, ?_, fun i => catRead_of_reserved cfg⟩ <;>
      exact catRead_of_lookup cfg (by decide)
  · rw [catRead_hardware, romTable_lookup_eq_none (by omega) (by omega)]
  · rw [catRead_hardware, romTable_lookup_eq_none (by omega) (by omega)]

end Sys2Proof.Machine

/-! PROOFS. The accumulator over a list of bits: the 16 bits before the command window only count, and
the eight of the window are the command, bit 7 first (spec/20_memory.md R56, spec/40_edge_decode.md R111
to R116). -/

namespace Sys2Proof.Machine

theorem pushBits_append (bs cs : List Bool) (s : State) :
    pushBits (bs ++ cs) s =
      ((pushBits bs s).1 ++ (pushBits cs (pushBits bs s).2).1, (pushBits cs (pushBits bs s).2).2) := by
  induction bs generalizing s with
  | nil => rfl
  | cons b bs ih => simp [pushBits, ih]

theorem nextCount_of_lt {k : BitVec 6} (h : k.toNat < 63) : nextCount k = k + 1 :=
  if_neg fun h63 => by simp [h63] at h

theorem count_succ_toNat {k : BitVec 6} (h : k.toNat < 63) : (k + 1).toNat = k.toNat + 1 := by
  rw [BitVec.toNat_add]
  change (k.toNat + 1) % 64 = k.toNat + 1
  omega

theorem count_succ_add (k : BitVec 6) (n : Nat) :
    k + 1 + BitVec.ofNat 6 n = k + BitVec.ofNat 6 (n + 1) := by
  rw [BitVec.add_assoc, Nat.add_comm, BitVec.ofNat_add]
  rfl

/-- Before the command window a bit only counts, where the lenient jump is out of reach (R111, R113). -/
theorem pushBit_beforeWindow (b : Bool) {s : State} (hk : s.bitsReceived.toNat < 16)
    (hjump : s.protocol = .standard ∨ 8 ≤ s.bitsReceived.toNat) :
    pushBit b s = (none, { s with bitsReceived := s.bitsReceived + 1 }) := by
  have hn := nextCount_of_lt (k := s.bitsReceived) (by omega)
  rcases pushBit_cases b s with ⟨h8, h⟩ | ⟨_, _, h⟩ | ⟨h17, _⟩ | ⟨h23, _⟩ | ⟨h24, _⟩
  · have hstd : s.protocol = .standard := hjump.resolve_right (by omega)
    rw [h, hn, if_neg (by simp [hstd])]
  · rw [h, hn]
  · omega
  · simp [h23] at hk
  · omega

/-- In the command window, before its last bit, a bit is shifted in (R114). -/
theorem pushBit_inWindow (b : Bool) {s : State} (h16 : 16 ≤ s.bitsReceived.toNat)
    (h23 : s.bitsReceived.toNat < 23) :
    pushBit b s = (none, { s with
      commandBits := shiftIn s.commandBits b, bitsReceived := s.bitsReceived + 1 }) := by
  have hn := nextCount_of_lt (k := s.bitsReceived) (by omega)
  rcases pushBit_cases b s with ⟨h8, _⟩ | ⟨_, h16', _⟩ | ⟨_, _, h⟩ | ⟨h23', _⟩ | ⟨h24, _⟩
  · omega
  · omega
  · rw [h, hn]
  · simp [h23'] at h23
  · omega

/-- The last bit of the command window completes the command (R115). -/
theorem pushBit_lastOfWindow (b : Bool) {s : State} (h23 : s.bitsReceived = 23#6) :
    pushBit b s = (some (shiftIn s.commandBits b), { s with
      commandBits := shiftIn s.commandBits b, bitsReceived := 24 }) := by
  have hk : s.bitsReceived.toNat = 23 := by rw [h23]; rfl
  rcases pushBit_cases b s with ⟨h8, _⟩ | ⟨_, h16, _⟩ | ⟨_, h23', _⟩ | ⟨_, h⟩ | ⟨h24, _⟩
  · omega
  · omega
  · omega
  · exact h
  · omega

/-- Bits before the command window, as many as fit there. -/
theorem pushBits_beforeWindow (bs : List Bool) {s : State}
    (hfit : s.bitsReceived.toNat + bs.length ≤ 16)
    (hjump : s.protocol = .standard ∨ 8 ≤ s.bitsReceived.toNat) :
    pushBits bs s = (List.replicate bs.length none,
      { s with bitsReceived := s.bitsReceived + BitVec.ofNat 6 bs.length }) := by
  induction bs generalizing s with
  | nil => simp [pushBits]
  | cons b bs ih =>
    rw [List.length_cons] at hfit
    have hsucc := count_succ_toNat (k := s.bitsReceived) (by omega)
    have hrest := ih (s := { s with bitsReceived := s.bitsReceived + 1 }) (by simp only [hsucc]; omega)
      (hjump.imp_right fun h8 => by simp only [hsucc]; omega)
    simp only [pushBits, pushBit_beforeWindow b (s := s) (by omega) hjump, hrest, List.length_cons,
      List.replicate_succ]
    rw [count_succ_add]

/-- Bits inside the command window, all before its last. -/
theorem pushBits_inWindow (bs : List Bool) {s : State} (h16 : 16 ≤ s.bitsReceived.toNat)
    (hfit : s.bitsReceived.toNat + bs.length ≤ 23) :
    pushBits bs s = (List.replicate bs.length none, { s with
      commandBits := bs.foldl shiftIn s.commandBits
      bitsReceived := s.bitsReceived + BitVec.ofNat 6 bs.length }) := by
  induction bs generalizing s with
  | nil => simp [pushBits]
  | cons b bs ih =>
    rw [List.length_cons] at hfit
    have hsucc := count_succ_toNat (k := s.bitsReceived) (by omega)
    have hrest := ih
      (s := { s with commandBits := shiftIn s.commandBits b, bitsReceived := s.bitsReceived + 1 })
      (by simp only [hsucc]; omega) (by simp only [hsucc]; omega)
    simp only [pushBits, pushBit_inWindow b h16 (by omega), hrest, List.length_cons,
      List.replicate_succ, List.foldl_cons]
    rw [count_succ_add]

theorem shiftIn_getLsbD (cb : Code) (b : Bool) (i : Nat) :
    (shiftIn cb b).getLsbD i = if i = 0 then b else decide (i < 8) && cb.getLsbD (i - 1) := by
  rw [shiftIn, BitVec.getLsbD_append]
  cases i with
  | zero => simp
  | succ i => simp [show i + 1 < 8 ↔ i < 7 by omega]

/-- Eight shifts leave nothing of the old register: the first bit has become bit 7 (R56, R116). -/
theorem foldl_shiftIn_msbFirst (cb c : Code) : (msbFirst c).foldl shiftIn cb = c := by
  apply BitVec.eq_of_getLsbD_eq
  intro i hi
  simp only [msbFirst, List.foldl_cons, List.foldl_nil, shiftIn_getLsbD]
  interval_cases i <;> simp

/-- From the start of the command window, the bits of a byte complete it, whatever the register held. -/
theorem pushBits_msbFirst (c : Code) {s : State} (h16 : s.bitsReceived = 16#6) :
    pushBits (msbFirst c) s =
      (List.replicate 7 none ++ [some c], { s with bitsReceived := 24, commandBits := c }) := by
  have hbyte : msbFirst c = (msbFirst c).take 7 ++ [c.getLsbD 0] := rfl
  have hwindow := pushBits_inWindow ((msbFirst c).take 7) (s := s) (by simp [h16])
    (by simp [h16, msbFirst])
  have hlast : shiftIn (((msbFirst c).take 7).foldl shiftIn s.commandBits) (c.getLsbD 0) = c :=
    foldl_shiftIn_msbFirst s.commandBits c
  rw [h16] at hwindow
  rw [hbyte, pushBits_append, hwindow]
  simp only [pushBits]
  rw [pushBit_lastOfWindow _ rfl, hlast]
  rfl

/-- Settles O52: 16 bits bring the counter to the command window, and the byte fills it. -/
theorem twentyFourBitsCompleteTheCommand : Obligations.TwentyFourBitsCompleteTheCommand := by
  intro s address c hstd h0 hlen
  rw [pushBits_append, pushBits_beforeWindow address (by simp [h0, hlen]) (.inl hstd),
    pushBits_msbFirst c (by simp [h0, hlen]), hlen]
  rfl

end Sys2Proof.Machine

/-! PROOFS. The word of an instruction: its row and its operands are read back from it
(spec/30_encoding.md R81 to R84). -/

namespace Sys2Proof

theorem selects_encode (i : Instr) : i.op.selects (encode i) = true := by
  cases i with
  | mark d => exact Laws.SelectsOwnRow.mark d
  | space d => exact Laws.SelectsOwnRow.space d
  | tick => exact Laws.SelectsOwnRow.tick
  | attach p src => exact Laws.SelectsOwnRow.attach p src
  | subscribe a h b => exact Laws.SelectsOwnRow.subscribe a h b
  | currentButton => exact Laws.SelectsOwnRow.currentButton
  | wasPressed => exact Laws.SelectsOwnRow.wasPressed
  | buttonCode b => exact Laws.SelectsOwnRow.buttonCode b
  | readStatus => exact Laws.SelectsOwnRow.readStatus

theorem setWidth_byteArg (v : BitVec 8) : (0#24 ++ v : BitVec 32).setWidth 8 = v :=
  BitVec.setWidth_append_eq_right

theorem setWidth_twoByteArg (h v : BitVec 8) : (0#16 ++ h ++ v : BitVec 32).setWidth 8 = v :=
  BitVec.setWidth_append_eq_right

theorem extractLsb'_twoByteArg (h v : BitVec 8) :
    (0#16 ++ h ++ v : BitVec 32).extractLsb' 8 8 = h := by
  apply BitVec.eq_of_getLsbD_eq
  intro i hi
  rw [BitVec.getLsbD_extractLsb', BitVec.getLsbD_append, BitVec.getLsbD_append]
  simp [hi]

theorem subOfBit_getLsbD_zero (b : Bool) : (subOfBit b).getLsbD 0 = b := by
  cases b <;> rfl

/-- The operands are read back from the fields they were written to (R84). -/
theorem build_encode (i : Instr) : i.op.build (encode i) = i := by
  cases i with
  | mark d | space d => simp [Instr.op, Op.build, encode]
  | attach p src =>
    simp only [Instr.op, Op.build, encode, optionBit_eq, argLow_eq, subField_mkWord, argField_mkWord,
      subOfBit_getLsbD_zero, setWidth_byteArg]
    cases p <;> rfl
  | subscribe a h b =>
    simp only [Instr.op, Op.build, encode, optionBit_eq, argLow_eq, argHandler_eq, subField_mkWord,
      argField_mkWord, subOfBit_getLsbD_zero, setWidth_twoByteArg, extractLsb'_twoByteArg]
    cases a <;> rfl
  | buttonCode b =>
    simp only [Instr.op, Op.build, encode, argLow_eq, argField_mkWord, setWidth_byteArg]
  | tick | currentButton | wasPressed | readStatus => rfl

theorem decode_encode (i : Instr) : decode (encode i) = .ok i := by
  rw [decode_of_selects _ _ (selects_encode i), build_encode]

theorem encode_tick : encode .tick = 0x3000000000#40 := by decide

theorem encode_ne_tick {i : Instr} (hi : i ≠ .tick) : encode i ≠ 0x3000000000#40 := by
  intro h
  have hdecode := decode_encode i
  rw [h, ← encode_tick, decode_encode] at hdecode
  cases hdecode
  exact hi rfl

end Sys2Proof

/-! PROOFS. The serialiser and the step (spec/20_memory.md R60 to R62, R66): which arrival is taken, what
it leaves of the run, and when there is none. -/

namespace Sys2Proof.Machine

/-! ### The order of one port -/

/-- A port offers its first item, whatever of the other port stands before it. -/
theorem firstOn_append_cons {p : Port} {before rest : List TraceItem} {x : TraceItem}
    (hbefore : ∀ y ∈ before, y.port ≠ p) (hx : x.port = p) :
    firstOn p (before ++ x :: rest) = some x := by
  induction before with
  | nil => simp [firstOn, hx]
  | cons y ys ih =>
    obtain ⟨hy, hys⟩ := List.forall_mem_cons.1 hbefore
    simp [firstOn, hy, ih hys]

theorem dropFirstOn_append_cons {p : Port} {before rest : List TraceItem} {x : TraceItem}
    (hbefore : ∀ y ∈ before, y.port ≠ p) (hx : x.port = p) :
    dropFirstOn p (before ++ x :: rest) = before ++ rest := by
  induction before with
  | nil => simp [dropFirstOn, hx]
  | cons y ys ih =>
    obtain ⟨hy, hys⟩ := List.forall_mem_cons.1 hbefore
    simp [dropFirstOn, hy, ih hys]

theorem traceAfter_portSource (p : Port) (xs : List TraceItem) :
    traceAfter (portSource p) xs = dropFirstOn p xs := by cases p <;> rfl

theorem exists_firstOn_of_mem {p : Port} {xs : List TraceItem} {x : TraceItem} (hx : x ∈ xs)
    (hp : x.port = p) : ∃ y, firstOn p xs = some y := by
  induction xs with
  | nil => cases hx
  | cons z zs ih =>
    simp only [firstOn]
    split
    · exact ⟨z, rfl⟩
    next hz =>
      rcases List.mem_cons.1 hx with rfl | hx
      · exact absurd hp hz
      · exact ih hx

theorem dropFirstOn_sublist (p : Port) (xs : List TraceItem) : (dropFirstOn p xs).Sublist xs := by
  induction xs with
  | nil => exact .slnil
  | cons x xs ih =>
    simp only [dropFirstOn]
    split
    · exact List.sublist_cons_self x xs
    · exact ih.cons_cons x

theorem traceAfter_sublist (src : Source) (xs : List TraceItem) : (traceAfter src xs).Sublist xs := by
  cases src with
  | edge => exact dropFirstOn_sublist .edge xs
  | host => exact dropFirstOn_sublist .host xs
  | scheduler => exact .refl xs

/-! ### Ties -/

theorem arbitrate_of_tie {s : State} {a b : Arrival} {rest : List Arrival}
    (h : ready s = a :: b :: rest) :
    arbitrate s = ((a :: b :: rest)[(takePick s).1 % (a :: b :: rest).length]?).map
      fun x => (x, (takePick s).2) := by
  simp only [arbitrate, h]

/-- Every arrival that is ready is taken for some choice (R62). -/
theorem exists_pick_of_mem_ready {s : State} {a : Arrival} (ha : a ∈ ready s) :
    ∃ k s', arbitrate { s with picks := k :: s.picks } = some (a, s') := by
  have hready : ∀ ks, ready { s with picks := ks } = ready s := fun _ => rfl
  obtain ⟨k, hk, hget⟩ := List.getElem_of_mem ha
  rcases hr : ready s with _ | ⟨x, _ | ⟨y, rest⟩⟩
  · simp [hr] at ha
  · obtain rfl : a = x := by simpa [hr] using ha
    exact ⟨0, _, arbitrate_of_ready_single ((hready _).trans hr)⟩
  · have hat : (x :: y :: rest)[k]? = some a := by rw [← hr, ← hget, List.getElem?_eq_getElem hk]
    refine ⟨k, s, (arbitrate_of_tie ((hready _).trans hr)).trans ?_⟩
    rw [← hr] at hat ⊢
    simp only [takePick, Nat.mod_eq_of_lt hk, hat]
    rfl

/-- Settles O39: a choice is an index into the ready arrivals, and a port's items before its first are
the other port's. -/
theorem serialiserTakesAnyEarliest : Obligations.SerialiserTakesAnyEarliest := by
  refine ⟨fun s s' a h => ?_, fun s a ha hmin => ?_, fun p before after' x hbefore hx => ?_⟩
  · obtain ⟨hready, hs'⟩ := arbitrate_some h
    obtain ⟨hoffer, hmin⟩ := (mem_ready_iff s a).1 hready
    exact ⟨hoffer, hmin, hs'⟩
  · exact exists_pick_of_mem_ready ((mem_ready_iff s a).2 ⟨ha, hmin⟩)
  · rw [traceAfter_portSource]
    exact ⟨firstOn_append_cons hbefore hx, dropFirstOn_append_cons hbefore hx⟩

/-! ### Well-formed traces -/

/-- A well-formed trace: every time between the start and the horizon, and no time after a smaller one
(R66). -/
theorem traceOrdered_iff {H t : Nat} {xs : List TraceItem} :
    traceOrdered H t xs = true ↔
      (∀ x ∈ xs, t ≤ x.time ∧ x.time ≤ H) ∧ xs.Pairwise (fun x y => x.time ≤ y.time) := by
  constructor
  · intro h
    refine ⟨fun x hx => traceOrdered_mem h hx, ?_⟩
    induction xs generalizing t with
    | nil => exact .nil
    | cons x xs ih =>
      simp only [traceOrdered, Bool.and_eq_true] at h
      exact .cons (fun y hy => (traceOrdered_mem h.2 hy).1) (ih h.2)
  · rintro ⟨hbounds, hpairs⟩
    induction hpairs generalizing t with
    | nil => rfl
    | cons hx _ ih =>
      rw [List.forall_mem_cons] at hbounds
      simp only [traceOrdered, Bool.and_eq_true, decide_eq_true_eq]
      exact ⟨hbounds.1, ih fun y hy => ⟨hx y hy, (hbounds.2 y hy).2⟩⟩

/-- The first item of a port is the earliest of that port. -/
theorem firstOn_time_le {p : Port} {xs : List TraceItem} {x y : TraceItem}
    (hpairs : xs.Pairwise fun x y => x.time ≤ y.time) (hfirst : firstOn p xs = some y) (hx : x ∈ xs)
    (hp : x.port = p) : y.time ≤ x.time := by
  induction hpairs with
  | nil => cases hx
  | cons hz _ ih =>
    rw [List.mem_cons] at hx
    simp only [firstOn] at hfirst
    split at hfirst
    · cases hfirst
      rcases hx with rfl | hx
      · exact Nat.le_refl _
      · exact hz x hx
    next hne =>
      rcases hx with rfl | hx
      · exact absurd hp hne
      · exact ih hfirst hx

theorem mem_arrivals_of_port {p : Port} {s : State} {a : Arrival} (h : portArrival p s = some a) :
    a ∈ arrivals s := by
  rw [mem_arrivals_iff]
  cases p with
  | edge => exact .inl h
  | host => exact .inr (.inl h)

/-- Nothing in a well-formed trace is earlier than an arrival that is ready. -/
theorem ready_time_le {s : State} {a : Arrival} (hok : s.traceOk = true) (ha : a ∈ ready s)
    {x : TraceItem} (hx : x ∈ s.trace) : a.time ≤ x.time := by
  obtain ⟨y, hy⟩ := exists_firstOn_of_mem hx rfl
  have hoffer : portArrival x.port s =
      some { source := portSource x.port, time := y.time, word := y.word } := by
    simp [portArrival, hy]
  have hmem := mem_arrivals_of_port hoffer
  calc a.time ≤ y.time := ((mem_ready_iff s a).1 ha).2 _ hmem
    _ ≤ x.time := firstOn_time_le (traceOrdered_iff.1 hok).2 hy hx rfl

/-- No arrival is before the latest step. -/
theorem arrival_time_ge {s : State} {a : Arrival} (hok : s.traceOk = true) (ha : a ∈ arrivals s) :
    s.time ≤ a.time := by
  have hport {p : Port} (h : portArrival p s = some a) : s.time ≤ a.time := by
    obtain ⟨x, hx, rfl⟩ := portArrival_eq_some h
    exact (traceOrdered_mem hok (firstOn_mem hx).1).1
  rcases (mem_arrivals_iff s a).1 ha with h | h | h
  · exact hport h
  · exact hport h
  · obtain ⟨-, -, rfl⟩ := tickArrival_eq_some h
    exact nextTickTime_ge s

/-- The run around a transaction: its instruction touches none of it (R66). -/
theorem perform_keeps_run {src : Source} {w : TWord} {s t : State} (h : perform src w s = .next t) :
    t.time = s.time ∧ t.trace = s.trace ∧ t.horizon = s.horizon := by
  rcases perform_cases src w s with ⟨i, -, -, hx⟩ | ⟨-, hx⟩
  · obtain ⟨-, htime, htrace, hhorizon, -⟩ := exec_keeps_run (hx.symm.trans h)
    exact ⟨htime, htrace, hhorizon⟩
  · cases hx.symm.trans h
    exact ⟨rfl, rfl, rfl⟩

/-- What a step makes of the run: a ready arrival's time, and the trace without that arrival. -/
theorem step_run {s t : State} (h : step s = .next t) :
    ∃ a ∈ ready s, t.time = a.time ∧ t.trace = traceAfter a.source s.trace ∧
      t.horizon = s.horizon := by
  obtain ⟨-, a, s', harb, hperf⟩ := step_next h
  obtain ⟨hready, hs'⟩ := arbitrate_some harb
  obtain ⟨htime, htrace, hhorizon⟩ := perform_keeps_run hperf
  refine ⟨a, hready, htime, htrace.trans ?_, hhorizon.trans ?_⟩ <;> rw [hs'] <;> rfl

/-- Settles O41: the arrival taken is no later than anything left, which keeps its order. -/
theorem stepKeepsTheRunWellFormed : Obligations.StepKeepsTheRunWellFormed := by
  intro s t hstep
  have hok := (step_next hstep).1
  obtain ⟨a, ha, htime, htrace, hhorizon⟩ := step_run hstep
  have hsub := traceAfter_sublist a.source s.trace
  obtain ⟨hbounds, hpairs⟩ := traceOrdered_iff.1 hok
  refine ⟨?_, ?_, hhorizon, step_keeps_cfg hstep⟩
  · rw [htime]
    exact arrival_time_ge hok ((mem_ready_iff s a).1 ha).1
  · rw [State.traceOk, htime, htrace, hhorizon, traceOrdered_iff]
    exact ⟨fun x hx => ⟨ready_time_le hok ha (hsub.subset hx), (hbounds x (hsub.subset hx)).2⟩,
      hpairs.sublist hsub⟩

/-! ### The end of a run -/

theorem portArrival_eq_none {p : Port} {s : State} (h : portArrival p s = none) :
    ∀ x ∈ s.trace, x.port ≠ p := by
  intro x hx hp
  obtain ⟨y, hy⟩ := exists_firstOn_of_mem hx hp
  simp [portArrival, hy] at h

theorem tickArrival_eq_none_iff (s : State) :
    tickArrival s = none ↔ s.attached = false ∨ s.horizon < nextTickTime s := by
  simp only [tickArrival, ite_eq_right_iff, reduceCtorEq, imp_false, not_and_or, Nat.not_le,
    Bool.not_eq_true]

/-- Nothing is on offer exactly at the end of the run (R66, R149). -/
theorem arrivals_eq_nil_iff (s : State) :
    arrivals s = [] ↔ s.trace = [] ∧ (s.attached = false ∨ s.horizon < nextTickTime s) := by
  rw [← tickArrival_eq_none_iff]
  simp only [arrivals, List.append_eq_nil_iff, Option.toList_eq_nil_iff, and_assoc]
  constructor
  · rintro ⟨hedge, hhost, htick⟩
    refine ⟨List.eq_nil_iff_forall_not_mem.2 fun x hx => ?_, htick⟩
    cases hp : x.port with
    | edge => exact portArrival_eq_none hedge x hx hp
    | host => exact portArrival_eq_none hhost x hx hp
  · rintro ⟨htrace, htick⟩
    simp [portArrival, htrace, firstOn, htick]

/-- No transaction stops the machine. -/
theorem perform_next (src : Source) (w : TWord) (s : State) : ∃ t, perform src w s = .next t := by
  rcases perform_cases src w s with ⟨i, -, -, hx⟩ | ⟨-, hx⟩
  · rw [hx]
    exact exec_next i s
  · exact ⟨_, hx⟩

/-- Settles O42: the serialiser has no answer exactly when nothing is on offer, and no transaction
stops. -/
theorem stepStopsOnlyAtTheEndOfARun : Obligations.StepStopsOnlyAtTheEndOfARun := by
  refine fun s => ⟨fun hbad => ?_, fun hok htrace htick => ?_, fun hok hcome => ?_⟩
  · simp [step, hbad]
  · have hnone := (arbitrate_eq_none_iff s).2 ((arrivals_eq_nil_iff s).2 ⟨htrace, htick⟩)
    simp [step, hok, hnone]
  · cases harb : arbitrate s with
    | none =>
      obtain ⟨htrace, htick⟩ := (arrivals_eq_nil_iff s).1 ((arbitrate_eq_none_iff s).1 harb)
      rcases hcome with hcome | ⟨hattached, hdue⟩
      · exact absurd htrace hcome
      · rcases htick with htick | htick
        · simp [hattached] at htick
        · omega
    | some r =>
      rw [step_of_arbitrate hok harb]
      exact perform_next _ _ _

/-! ### The instruction of a step -/

theorem perform_of_decode {src : Source} {w : TWord} {i : Instr} (hdecode : decode w = .ok i)
    (hsrc : i.op.source = src) (s : State) : perform src w s = exec i s := by
  simp [perform, (decodeFor_ok_iff src w i).2 ⟨hdecode, hsrc⟩]

theorem perform_of_illegal {src : Source} {w : TWord}
    (h : ∀ i, decode w = .ok i → i.op.source ≠ src) (s : State) :
    perform src w s = .next (s.raiseIllegal src) := by
  rcases perform_cases src w s with ⟨i, hdecode, hsrc, -⟩ | ⟨-, hx⟩
  · exact absurd hsrc (h i hdecode)
  · exact hx

/-- Settles O36: a step is `perform` of the arrival taken, which decodes its word. -/
theorem stepRunsTheDecodedInstruction : Obligations.StepRunsTheDecodedInstruction := by
  intro s s' a hok harb
  rw [step_of_arbitrate hok harb]
  exact ⟨fun i hdecode hsrc => perform_of_decode hdecode hsrc _, fun h => perform_of_illegal h _⟩

/-! ### A placed word -/

/-- An instruction's word belongs on the port of its row (R82). -/
theorem portSource_wordPort_encode {i : Instr} (hi : i ≠ .tick) :
    portSource (wordPort (encode i)) = i.op.source := by
  have hop : opField (encode i) = i.op.opcode := ((Op.selects_iff _ _).1 (selects_encode i)).1
  rw [wordPort, hop]
  cases i with
  | tick => exact absurd rfl hi
  | _ => rfl

/-- A word as an arrival on its own port, at the state's time. -/
def placedArrival (w : TWord) (s : State) : Arrival :=
  { source := portSource (wordPort w), time := s.time, word := w }

/-- What is on offer once a word is placed: the word, and the TICK if one is due. -/
theorem arrivals_placeOnPort (w : TWord) (s : State) :
    arrivals (placeOnPort w s) = placedArrival w s :: (tickArrival (placeOnPort w s)).toList := by
  cases hp : wordPort w <;> simp [arrivals, portArrival, placeOnPort, placedArrival, firstOn, hp]

theorem ready_of_arrivals_cons {s : State} {a : Arrival} {bs : List Arrival}
    (h : arrivals s = a :: bs) (hlater : ∀ b ∈ bs, a.time < b.time) : ready s = [a] := by
  rw [ready, h, List.filter_cons_of_pos, List.filter_eq_nil_iff.2]
  · intro b hb
    simpa using fun hle => absurd hle (Nat.not_le.2 (hlater b hb))
  · simpa using fun b hb => Nat.le_of_lt (hlater b hb)

theorem ready_eq_arrivals {s : State} {t : Nat} (h : ∀ a ∈ arrivals s, a.time = t) :
    ready s = arrivals s := by
  refine List.filter_eq_self.2 fun a ha => List.all_eq_true.2 fun b hb => ?_
  simp [h a ha, h b hb]

/-- A TICK that falls due at the time of a placed word is on offer beside it. -/
theorem tickArrival_placeOnPort_of_due {w : TWord} {s : State}
    (hdue : s.attached = true ∧ nextTickTime s = s.time) :
    tickArrival (placeOnPort w s) =
      some { source := .scheduler, time := s.time, word := 0x3000000000#40 } := by
  have htime : nextTickTime (placeOnPort w s) = s.time := hdue.2
  have hhorizon : s.time ≤ (placeOnPort w s).horizon := Nat.le_max_right _ _
  rw [tickArrival, htime, if_pos ⟨hdue.1, hhorizon⟩]

/-- A TICK that is not due at the time of a placed word comes later. -/
theorem time_lt_tick_of_not_due {w : TWord} {s : State} {b : Arrival}
    (hdue : ¬ (s.attached = true ∧ nextTickTime s = s.time))
    (hb : b ∈ (tickArrival (placeOnPort w s)).toList) : s.time < b.time := by
  obtain ⟨hattached, -, rfl⟩ := tickArrival_eq_some (Option.mem_toList.1 hb)
  exact Nat.lt_of_le_of_ne (nextTickTime_ge s) fun h => hdue ⟨hattached, h.symm⟩

/-- A placed word is taken first, before a TICK of the same time (log entry 1). -/
theorem arbitrate_placeOnPort (w : TWord) (s : State) :
    arbitrate (placeOnPort w s) =
      some (placedArrival w s, { placeOnPort w s with picks := s.picks }) := by
  have hoffer := arrivals_placeOnPort w s
  by_cases hdue : s.attached = true ∧ nextTickTime s = s.time
  · rw [tickArrival_placeOnPort_of_due hdue] at hoffer
    have hready := (ready_eq_arrivals (t := s.time) (by simp [hoffer, placedArrival])).trans hoffer
    have hpicks : (placeOnPort w s).picks = 0 :: s.picks := if_pos hdue
    rw [arbitrate_of_tie hready, takePick, hpicks]
    rfl
  · have hready := ready_of_arrivals_cons hoffer fun b hb => time_lt_tick_of_not_due hdue hb
    have hpicks : (placeOnPort w s).picks = s.picks := if_neg hdue
    rw [arbitrate_of_ready_single hready, ← hpicks]

theorem traceOk_placeOnPort (w : TWord) (s : State) : (placeOnPort w s).traceOk = true := by
  simp [State.traceOk, placeOnPort, traceOrdered]

/-- The step of a placed word: the word's transaction, with only the run's fields set. -/
theorem step_placeOnPort (w : TWord) (s : State) :
    step (placeOnPort w s) = perform (portSource (wordPort w)) w
      { s with trace := [], horizon := max s.horizon s.time } := by
  rw [step_of_arbitrate (traceOk_placeOnPort w s) (arbitrate_placeOnPort w s)]
  have htrace : traceAfter (portSource (wordPort w)) (placeOnPort w s).trace = [] := by
    simp [traceAfter_portSource, placeOnPort, dropFirstOn]
  simp only [accept, placedArrival, htrace]
  rfl

/-- A placed TICK is due now. -/
theorem nextTickTime_placeTick (s : State) : nextTickTime (placeTick s) = s.time := by
  simp [nextTickTime, placeTick, State.now]

/-- A placed TICK is all that is on offer. -/
theorem arrivals_placeTick (s : State) :
    arrivals (placeTick s) =
      [{ source := .scheduler, time := s.time, word := 0x3000000000#40 }] := by
  have hhorizon : s.time ≤ (placeTick s).horizon := Nat.le_max_right _ _
  rw [arrivals, tickArrival, nextTickTime_placeTick, if_pos ⟨rfl, hhorizon⟩]
  rfl

theorem step_placeTick (s : State) :
    step (placeTick s) = perform .scheduler 0x3000000000#40 (placeTick s) := by
  have hready := ready_of_arrivals_cons (arrivals_placeTick s) (by simp)
  exact step_of_arbitrate rfl (arbitrate_of_ready_single hready)

theorem ofNat_encode (i : Instr) : BitVec.ofNat 40 (encode i).toNat = encode i := by
  rw [BitVec.ofNat_toNat, BitVec.setWidth_eq]

/-- Settles O37: the word is the arrival taken, on its own source, and decodes to its instruction. -/
theorem placedWordRunsNext : Obligations.PlacedWordRunsNext := by
  refine ⟨fun s i hi => ?_, fun s => ?_⟩
  · rw [State.withFetchWord, ofNat_encode, if_neg (encode_ne_tick hi), step_placeOnPort]
    exact perform_of_decode (decode_encode i) (portSource_wordPort_encode hi).symm _
  · rw [State.withFetchWord, ofNat_encode, if_pos encode_tick, step_placeTick, ← encode_tick]
    exact perform_of_decode (decode_encode .tick) rfl _

end Sys2Proof.Machine

/-! PROOFS. Which words decode, and to what (spec/30_encoding.md R81 to R86): the row that selects a word
is the only one, and under it the word is the encoding of its own operands, since its reserved bits are
0. -/

namespace Sys2Proof

/-! ### Fields whose reserved bits are 0 -/

theorem and_sub4 (u : BitVec 4) : u &&& 0xF#4 = 0 ↔ u = 0 := by
  rw [show 0xF#4 = BitVec.allOnes 4 from rfl, BitVec.and_allOnes]

theorem and_arg32 (a : BitVec 32) : a &&& 0xFFFFFFFF#32 = 0 ↔ a = 0 := by
  rw [show 0xFFFFFFFF#32 = BitVec.allOnes 32 from rfl, BitVec.and_allOnes]

/-- A SUB field with only its option bit free is written back from that bit (R81, formats FA and FS). -/
theorem subOfBit_getLsbD {u : BitVec 4} (h : u &&& 0xE#4 = 0) : subOfBit (u.getLsbD 0) = u := by
  revert u
  decide

/-- An ARG below 2^8 is written back from its low byte (R81, formats FA and FI). -/
theorem byteArg_setWidth {a : BitVec 32} (h : a &&& 0xFFFFFF00#32 = 0) :
    (0#24 ++ a.setWidth 8 : BitVec 32) = a := by
  have ha := (and_high24 a).1 h
  apply BitVec.eq_of_toNat_eq
  rw [BitVec.toNat_append]
  simpa using ha

/-- An ARG below 2^16 is written back from its two low bytes (R81, format FS). -/
theorem twoByteArg_extractLsb' {a : BitVec 32} (h : a &&& 0xFFFF0000#32 = 0) :
    (0#16 ++ a.extractLsb' 8 8 ++ a.setWidth 8 : BitVec 32) = a := by
  have ha := (and_high16 a).1 h
  apply BitVec.eq_of_toNat_eq
  rw [BitVec.toNat_append, ← Nat.shiftLeft_add_eq_or_of_lt (BitVec.isLt _), BitVec.toNat_append,
    ← Nat.shiftLeft_add_eq_or_of_lt (BitVec.isLt _)]
  simp only [BitVec.extractLsb'_toNat, BitVec.toNat_setWidth, BitVec.toNat_ofNat, Nat.shiftLeft_eq,
    Nat.shiftRight_eq_div_pow]
  omega

theorem protocolBit_protocolOfBit (b : Bool) : protocolBit (protocolOfBit b) = b := by
  cases b <;> rfl

theorem kindBit_kindOfBit (b : Bool) : kindBit (kindOfBit b) = b := by
  cases b <;> rfl

/-! ### The row of a word -/

/-- R83: two rows that select a word have its OP as their opcode. -/
theorem Op.selects_unique {w : TWord} {a b : Op} (ha : a.selects w = true) (hb : b.selects w = true) :
    a = b :=
  Op.opcode_inj a b
    (((Op.selects_iff a w).1 ha).1.symm.trans ((Op.selects_iff b w).1 hb).1)

/-- The operands taken from a word of their row are written back to that word (R84, R85). -/
theorem encode_build {op : Op} {w : TWord} (h : op.selects w = true) : encode (op.build w) = w := by
  obtain ⟨hop, hsub, harg⟩ := (Op.selects_iff op w).1 h
  refine Eq.trans ?_ (mkWord_fields w)
  rw [hop]
  cases op with
  | mark | space =>
    rw [(and_sub4 (subField w)).1 hsub]
    rfl
  | tick | currentButton | wasPressed | readStatus =>
    rw [(and_sub4 (subField w)).1 hsub, (and_arg32 (argField w)).1 harg]
    rfl
  | attach =>
    simp only [Op.build, encode, protocolBit_protocolOfBit, optionBit_eq, argLow_eq]
    rw [subOfBit_getLsbD hsub, byteArg_setWidth harg]
    rfl
  | subscribe =>
    simp only [Op.build, encode, kindBit_kindOfBit, optionBit_eq, argLow_eq, argHandler_eq]
    rw [subOfBit_getLsbD hsub, twoByteArg_extractLsb' harg]
    rfl
  | buttonCode =>
    simp only [Op.build, encode, argLow_eq]
    rw [(and_sub4 (subField w)).1 hsub, byteArg_setWidth harg]
    rfl

theorem decode_ok_iff_eq_encode (w : TWord) (i : Instr) : decode w = .ok i ↔ w = encode i := by
  constructor
  · intro h
    obtain ⟨op, hop, rfl⟩ := (decode_ok_iff w i).1 h
    exact (encode_build hop).symm
  · rintro rfl
    exact decode_encode i

/-- Settles O2: `build` and `encode` undo each other on the words of a row. -/
theorem decodeAndEncodeAgree : Obligations.DecodeAndEncodeAgree := decode_ok_iff_eq_encode

/-- Settles O3: the opcode of a row is the OP of every word it selects, and no two rows share one. -/
theorem noWordSelectsTwoRows : Obligations.NoWordSelectsTwoRows :=
  fun _ _ _ => Op.selects_unique

/-! ### The words that decode -/

theorem exists_decode_iff (w : TWord) : (∃ i, decode w = .ok i) ↔ ∃ op : Op, op.selects w = true := by
  constructor
  · rintro ⟨i, h⟩
    obtain ⟨op, hop, -⟩ := (decode_ok_iff w i).1 h
    exact ⟨op, hop⟩
  · rintro ⟨op, hop⟩
    exact ⟨_, decode_of_selects op w hop⟩

/-- What the words of a row look like by field (R81). -/
def Op.Fields (w : TWord) : Op → Prop
  | .mark => opField w = 0x1 ∧ subField w = 0
  | .space => opField w = 0x2 ∧ subField w = 0
  | .tick => opField w = 0x3 ∧ subField w = 0 ∧ argField w = 0
  | .attach => opField w = 0x4 ∧ (subField w).toNat < 2 ∧ (argField w).toNat < 2 ^ 8
  | .subscribe => opField w = 0x5 ∧ (subField w).toNat < 2 ∧ (argField w).toNat < 2 ^ 16
  | .currentButton => opField w = 0x6 ∧ subField w = 0 ∧ argField w = 0
  | .wasPressed => opField w = 0x7 ∧ subField w = 0 ∧ argField w = 0
  | .buttonCode => opField w = 0x8 ∧ subField w = 0 ∧ (argField w).toNat < 2 ^ 8
  | .readStatus => opField w = 0x9 ∧ subField w = 0 ∧ argField w = 0

/-- A row selects exactly the words of its format (R81, R83). -/
theorem Op.selects_iff_fields (op : Op) (w : TWord) : op.selects w = true ↔ op.Fields w := by
  rw [Op.selects_iff]
  cases op with
  | mark | space =>
    exact and_congr_right' ((and_iff_left BitVec.and_zero).trans (and_sub4 _))
  | tick | currentButton | wasPressed | readStatus =>
    exact and_congr_right' (and_congr (and_sub4 _) (and_arg32 _))
  | attach => exact and_congr_right' (and_congr (and_sub3 _) (and_high24 _))
  | subscribe => exact and_congr_right' (and_congr (and_sub3 _) (and_high16 _))
  | buttonCode => exact and_congr_right' (and_congr (and_sub4 _) (and_high24 _))

/-- Settles O4: the statement's disjuncts are the rows' formats, grouped. -/
theorem legalWordsByField : Obligations.LegalWordsByField := by
  intro w
  simp only [exists_decode_iff, Op.selects_iff_fields]
  constructor
  · rintro ⟨op, h⟩
    cases op with
    | mark => exact .inl ⟨.inl h.1, h.2⟩
    | space => exact .inl ⟨.inr h.1, h.2⟩
    | tick => exact .inr (.inl ⟨.inl h.1, h.2⟩)
    | currentButton => exact .inr (.inl ⟨.inr (.inl h.1), h.2⟩)
    | wasPressed => exact .inr (.inl ⟨.inr (.inr (.inl h.1)), h.2⟩)
    | readStatus => exact .inr (.inl ⟨.inr (.inr (.inr h.1)), h.2⟩)
    | attach => exact .inr (.inr (.inl h))
    | subscribe => exact .inr (.inr (.inr (.inl h)))
    | buttonCode => exact .inr (.inr (.inr (.inr h)))
  · rintro (⟨h | h, hsub⟩ | ⟨h | h | h | h, hrest⟩ | h | h | h)
    · exact ⟨.mark, h, hsub⟩
    · exact ⟨.space, h, hsub⟩
    · exact ⟨.tick, h, hrest⟩
    · exact ⟨.currentButton, h, hrest⟩
    · exact ⟨.wasPressed, h, hrest⟩
    · exact ⟨.readStatus, h, hrest⟩
    · exact ⟨.attach, h⟩
    · exact ⟨.subscribe, h⟩
    · exact ⟨.buttonCode, h⟩

/-- Settles O1: each word decodes since it is the encoder's, by evaluation. -/
theorem handWrittenWordsDecode : Obligations.HandWrittenWordsDecode := by
  simp only [Obligations.HandWrittenWordsDecode, decode_ok_iff_eq_encode]
  decide

end Sys2Proof

/-! PROOFS. The FRAME pseudo-instruction (spec/30_encoding.md R89) as bits: each of its pulse pairs is one
PUSH_BIT, the first 24 complete the command (spec/40_edge_decode.md R115, R116), and the last eight only
count. -/

namespace Sys2Proof.Machine

/-! ### Lists of instructions -/

theorem runInstrs_cons {i : Instr} {s t : State} (is : List Instr) (h : exec i s = .next t) :
    runInstrs (i :: is) s = (runInstrs is t).map fun r => (r.1, t.out.events ++ r.2) := by
  simp only [runInstrs, h]

theorem runInstrs_append {is : List Instr} {s t : State} {evs : List EventRecord} (js : List Instr)
    (h : runInstrs is s = some (t, evs)) :
    runInstrs (is ++ js) s = (runInstrs js t).map fun r => (r.1, evs ++ r.2) := by
  induction is generalizing s evs with
  | nil =>
    cases h
    simp
  | cons i is ih =>
    obtain ⟨u, hu⟩ := exec_next i s
    rw [runInstrs_cons is hu, Option.map_eq_some_iff] at h
    obtain ⟨⟨v, evs'⟩, hrest, heq⟩ := h
    cases heq
    rw [List.cons_append, runInstrs_cons _ hu, ih hrest, Option.map_map]
    simp [Function.comp_def]

/-- A pulse pair, whose MARK emits nothing. -/
theorem runInstrs_pairInstrs {m d : Dur} {s t : State} (ha : s.attached = true)
    (h : exec (.space d) { s.quiet with markLatch := m } = .next t) :
    runInstrs (pairInstrs m d) s = some (t, t.out.events) := by
  have hmark : exec (.mark m) s = .next { s.quiet with markLatch := m } :=
    congrArg Host.Outcome.next (if_pos ha)
  rw [pairInstrs, runInstrs_cons _ hmark, runInstrs_cons _ h]
  simp [runInstrs, Output.quiet]

/-! ### The pulse pairs of a frame -/

/-- The state after LEAD (R89). -/
def State.afterLead (s : State) : State := { s.quiet with markLatch := 9000, bitsReceived := 0 }

/-- LEAD resyncs the accumulator and emits nothing (R102, R103). -/
theorem runInstrs_leadInstrs {s : State} (ha : s.attached = true) (hcfg : s.cfg = Config.hardware) :
    runInstrs leadInstrs s = some (s.afterLead, []) := by
  have hwf : s.cfg.wf = true := by rw [hcfg]; decide
  have hsum : spaceSum { s.quiet with markLatch := 9000 } 4500 = 13500 := rfl
  have hlong : s.cfg.tStart ≤ spaceSum { s.quiet with markLatch := 9000 } 4500 := by
    rw [hcfg, hsum]
    decide
  exact runInstrs_pairInstrs ha (execSpace_long _ 4500 ha hwf hlong)

/-- The state after the pulse of 560 µs that opens every bit of a frame (R89). -/
def State.latchPulse (s : State) : State := { s.quiet with markLatch := 560 }

/-- The sum of a bit's two durations lies in the band of that bit (R89, R100). -/
theorem spaceSum_bit (b : Bool) {s : State} (hcfg : s.cfg = Config.hardware) :
    spaceSum s.latchPulse (if b then 1690 else 560) < s.cfg.tRepeat ∧
      sumBit s.cfg (spaceSum s.latchPulse (if b then 1690 else 560)) = b := by
  have hsum : spaceSum s.latchPulse (if b then 1690 else 560) = if b then 2250 else 1120 := by
    cases b <;> rfl
  rw [hsum, hcfg]
  cases b <;> decide

/-- B0 and B1 are one PUSH_BIT, whose result reaches the engine (R89, R125). -/
theorem runInstrs_bitInstrs (b : Bool) {s : State} (ha : s.attached = true)
    (hcfg : s.cfg = Config.hardware) :
    runInstrs (bitInstrs b) s =
      let t := deliver (resolvedOf (pushBit b s.latchPulse).1) (pushBit b s.latchPulse).2
      some (t, t.out.events) := by
  obtain ⟨hlt, hbit⟩ := spaceSum_bit b hcfg
  refine runInstrs_pairInstrs ha ((execSpace_bit s.latchPulse _ ha hlt).trans ?_)
  rw [show sumBit s.latchPulse.cfg _ = b from hbit, show s.latchPulse.quiet = s.latchPulse from rfl]
  rcases pushBit b s.latchPulse with ⟨_ | c, t⟩ <;> rfl

/-- PUSH_BIT writes the counter and the command register only. -/
theorem pushBit_frame (b : Bool) (s : State) :
    (pushBit b s).2 = { s with
      commandBits := (pushBit b s).2.commandBits, bitsReceived := (pushBit b s).2.bitsReceived } := by
  rcases pushBit_cases b s with ⟨_, h⟩ | ⟨_, _, h⟩ | ⟨_, _, h⟩ | ⟨_, h⟩ | ⟨_, h⟩ <;> rw [h]

/-- The next pulse finds the latch and the outputs as the bit before it left them. -/
theorem latchPulse_pushBit (b : Bool) (s : State) :
    (pushBit b s.latchPulse).2.latchPulse = (pushBit b s.latchPulse).2 := by
  rw [pushBit_frame]
  rfl

/-- A bit that completes no command emits nothing. -/
theorem runInstrs_bitInstrs_of_none {b : Bool} {s : State} (ha : s.attached = true)
    (hcfg : s.cfg = Config.hardware) (h : (pushBit b s.latchPulse).1 = none) :
    runInstrs (bitInstrs b) s = some ((pushBit b s.latchPulse).2, []) := by
  have hsilent : (pushBit b s.latchPulse).2.out.events = [] := by rw [pushBit_frame]; rfl
  simp only [runInstrs_bitInstrs b ha hcfg, h, resolvedOf, deliver, hsilent]

/-- Bits of which none but the last can complete a command: PUSH_BIT of them all, and the result of the
last reaches the engine. -/
theorem runInstrs_bits {n : Nat} {x : Option Code} {bs : List Bool} {s u : State}
    (ha : s.attached = true) (hcfg : s.cfg = Config.hardware)
    (h : pushBits bs s.latchPulse = (List.replicate n none ++ [x], u)) :
    runInstrs (bs.flatMap bitInstrs) s =
      some (deliver (resolvedOf x) u, (deliver (resolvedOf x) u).out.events) := by
  induction n generalizing bs s with
  | zero =>
    match bs, h with
    | [b], h =>
      obtain ⟨rfl, rfl⟩ : (pushBit b s.latchPulse).1 = x ∧ (pushBit b s.latchPulse).2 = u := by
        simpa [pushBits] using h
      rw [List.flatMap_singleton, runInstrs_bitInstrs b ha hcfg]
  | succ n ih =>
    match bs, h with
    | b :: bs, h =>
      obtain ⟨hnone, hrest⟩ : (pushBit b s.latchPulse).1 = none ∧
          pushBits bs (pushBit b s.latchPulse).2 = (List.replicate n none ++ [x], u) := by
        simpa [pushBits, List.replicate_succ, Prod.ext_iff, and_assoc] using h
      have htail := ih (s := (pushBit b s.latchPulse).2) (by rw [pushBit_frame]; exact ha)
        (by rw [pushBit_frame]; exact hcfg) (by rw [latchPulse_pushBit]; exact hrest)
      rw [List.flatMap_cons, runInstrs_append _ (runInstrs_bitInstrs_of_none ha hcfg hnone), htail]
      rfl

/-! ### Past the command window -/

/-- Past the command window a bit only counts (R117). -/
theorem pushBit_pastWindow (b : Bool) {s : State} (h24 : 24 ≤ s.bitsReceived.toNat)
    (h63 : s.bitsReceived.toNat < 63) :
    pushBit b s = (none, { s with bitsReceived := s.bitsReceived + 1 }) := by
  have hn := nextCount_of_lt h63
  rcases pushBit_cases b s with ⟨h8, _⟩ | ⟨_, h16, _⟩ | ⟨_, h23, _⟩ | ⟨h23, _⟩ | ⟨_, h⟩
  · omega
  · omega
  · omega
  · simp [h23] at h24
  · rw [h, hn]

/-- Bits past the command window, as many as the counter takes before it saturates. -/
theorem pushBits_pastWindow (bs : List Bool) {s : State} (h24 : 24 ≤ s.bitsReceived.toNat)
    (hfit : s.bitsReceived.toNat + bs.length ≤ 63) :
    pushBits bs s = (List.replicate bs.length none,
      { s with bitsReceived := s.bitsReceived + BitVec.ofNat 6 bs.length }) := by
  induction bs generalizing s with
  | nil => simp [pushBits]
  | cons b bs ih =>
    rw [List.length_cons] at hfit
    have hsucc := count_succ_toNat (k := s.bitsReceived) (by omega)
    have hrest := ih (s := { s with bitsReceived := s.bitsReceived + 1 }) (by simp only [hsucc]; omega)
      (by simp only [hsucc]; omega)
    simp only [pushBits, pushBit_pastWindow b h24 (by omega), hrest, List.length_cons,
      List.replicate_succ]
    rw [count_succ_add]

/-! ### One DEBOUNCE_CMD -/

@[simp] theorem debounceCmd_cfg (c : Code) (s : State) : (debounceCmd c s).cfg = s.cfg := by
  rw [debounceCmd_frame]

theorem releaseRecords_eq (s : State) :
    releaseRecords s = if s.activeCommand = noneCode then []
      else [record s.subTable .released s.heldCode] := by
  by_cases h : s.activeCommand = noneCode <;> simp [releaseRecords, State.held, h]

/-- What DEBOUNCE_CMD announces: nothing for the held code, else the release and the press (R141, R142). -/
theorem debounceCmd_events (c : Code) {s : State} (hs : s.out.events = []) :
    (debounceCmd c s).out.events = if s.activeCommand = wireCode c then []
      else releaseRecords s ++ [record s.subTable .pressed c] := by
  rcases debounceCmd_cases c s with ⟨hidle, h⟩ | ⟨hheld, hne, h⟩ | ⟨hsame, h⟩
  · simp [h, hs, hidle, (wireCode_ne_none c).symm, releaseRecords_eq]
  · simp [h, hs, hne, hheld, releaseRecords_eq]
  · simp [h, hs, hsame]

/-- What DEBOUNCE_CMD leaves in the registers, where the same code refreshes the deadline (R141, R142). -/
theorem debounceCmd_registers (c : Code) {s : State} (hrefresh : s.cfg.sameCodeRefresh = true) :
    debounceCmd c s = { s with
      lastCommand := wireCode c
      activeCommand := wireCode c
      hasUnreadPress := s.hasUnreadPress || decide (s.activeCommand ≠ wireCode c)
      repeatDeadline := s.now + s.cfg.repeatWindowMs
      out := (debounceCmd c s).out } := by
  rcases debounceCmd_cases c s with ⟨hidle, h⟩ | ⟨hheld, hne, h⟩ | ⟨hsame, h⟩ <;> rw [h]
  · simp [hidle, (wireCode_ne_none c).symm]
  · simp [hne]
  · simp [hsame, hrefresh]

/-! ### The frame -/

/-- A frame is LEAD, the 24 bits up to its command, and the eight bits after it (R89). -/
theorem frameInstrs_eq (a c : Code) :
    frameInstrs a c = leadInstrs ++
      ((msbFirst a ++ msbFirst (~~~a) ++ msbFirst c).flatMap bitInstrs ++ byteInstrs (~~~c)) := by
  simp [frameInstrs, byteInstrs]

/-- The eight bits after a command only count, and emit nothing (R117). -/
theorem runInstrs_byteInstrs_pastWindow (v : Code) {s : State} (ha : s.attached = true)
    (hcfg : s.cfg = Config.hardware) (h24 : s.bitsReceived = 24) :
    runInstrs (byteInstrs v) s = some ({ s.latchPulse with bitsReceived := 32 }, []) := by
  have hbits : pushBits (msbFirst v) s.latchPulse =
      (List.replicate 7 none ++ [none], { s.latchPulse with bitsReceived := 32 }) := by
    have h24' : s.latchPulse.bitsReceived = 24 := h24
    rw [pushBits_pastWindow (msbFirst v) (by simp [h24']) (by simp [h24', msbFirst]), h24']
    rfl
  exact runInstrs_bits ha hcfg hbits

/-- The state in which the command of a frame reaches the engine. -/
def State.frameCommand (c : Code) (s : State) : State :=
  { s.latchPulse with bitsReceived := 24, commandBits := c }

/-- The 24 bits after LEAD complete the command: 16 of any value, then its byte (R115, R116). -/
theorem runInstrs_bits_afterLead {address : List Bool} (c : Code) {s : State}
    (ha : s.attached = true) (hstd : s.protocol = .standard) (hcfg : s.cfg = Config.hardware)
    (hlen : address.length = 16) :
    runInstrs ((address ++ msbFirst c).flatMap bitInstrs) s.afterLead =
      some (debounceCmd c (s.frameCommand c), (debounceCmd c (s.frameCommand c)).out.events) :=
  runInstrs_bits (s := s.afterLead) ha hcfg
    (twentyFourBitsCompleteTheCommand s.afterLead.latchPulse address c hstd rfl hlen)

/-- A frame is one DEBOUNCE_CMD of its command, whatever the accumulator held. -/
theorem runInstrs_frameInstrs (a c : Code) {s : State} (ha : s.attached = true)
    (hstd : s.protocol = .standard) (hcfg : s.cfg = Config.hardware) :
    runInstrs (frameInstrs a c) s =
      some ({ (debounceCmd c (s.frameCommand c)).latchPulse with bitsReceived := 32 },
        (debounceCmd c (s.frameCommand c)).out.events) := by
  have hcommand := runInstrs_bits_afterLead (address := msbFirst a ++ msbFirst (~~~a)) c ha hstd hcfg rfl
  have hrest := runInstrs_byteInstrs_pastWindow (~~~c) (s := debounceCmd c (s.frameCommand c))
    ((debounceCmd_attached _ _).trans ha) ((debounceCmd_cfg _ _).trans hcfg)
    (debounceCmd_bitsReceived _ _)
  rw [frameInstrs_eq, runInstrs_append _ (runInstrs_leadInstrs ha hcfg),
    runInstrs_append _ hcommand, hrest]
  simp

/-- Settles O54: a frame is one DEBOUNCE_CMD, after which eight bits count on. -/
theorem frameResolvesItsCommand : Obligations.FrameResolvesItsCommand := by
  intro s a c ha hstd hcfg
  have hrefresh : (s.frameCommand c).cfg.sameCodeRefresh = true :=
    congrArg Config.sameCodeRefresh hcfg
  have hwindow : (s.frameCommand c).cfg.repeatWindowMs = 120 := congrArg Config.repeatWindowMs hcfg
  refine ⟨_, runInstrs_frameInstrs a c ha hstd hcfg |>.trans (congrArg some (Prod.ext rfl ?_)), ?_⟩
  · rw [debounceCmd_events c rfl, releaseRecords_eq]
    rfl
  · rw [debounceCmd_registers c hrefresh, hwindow]
    rfl

end Sys2Proof.Machine

/-! PROOFS. The accumulator against the source's, and over bits without a resync
(spec/40_edge_decode.md R111 to R119). -/

namespace Sys2Proof.Machine

/-! ### The source's accumulator -/

/-- A bit in the address window counts, or jumps (R111, R112). -/
theorem SourceAccumulator.feed_addressWindow (p : Protocol) (b : Bool) {r : SourceAccumulator}
    (h8 : r.count + 1 ≤ 8) :
    r.feed p (some b) =
      (none, { r with count := if p = .addressLenient ∧ b = true then 9 else r.count + 1 }) :=
  if_pos h8

/-- A bit between the address and the command window, or past the latter, only counts (R113, R117). -/
theorem SourceAccumulator.feed_discarded (p : Protocol) (b : Bool) {r : SourceAccumulator}
    (h9 : 9 ≤ r.count + 1) (h : r.count + 1 ≤ 16 ∨ 24 < r.count + 1) :
    r.feed p (some b) = (none, { r with count := r.count + 1 }) := by
  have h8 : ¬ r.count + 1 ≤ 8 := by omega
  simp only [feed, if_neg h8]
  rcases h with h16 | h24
  · rw [if_pos h16]
  · rw [if_neg (show ¬ r.count + 1 ≤ 16 by omega), if_neg (Nat.not_le_of_lt h24)]

/-- A bit in the command window is appended, and the last one completes the command (R114, R115). -/
theorem SourceAccumulator.feed_commandWindow (p : Protocol) (b : Bool) {r : SourceAccumulator}
    (h17 : 17 ≤ r.count + 1) (h24 : r.count + 1 ≤ 24) :
    r.feed p (some b) = (if r.count + 1 = 24 then some ((r.bits * 2 + b.toNat) % 256) else none,
      { count := r.count + 1, bits := r.bits * 2 + b.toNat }) := by
  have h8 : ¬ r.count + 1 ≤ 8 := by omega
  have h16 : ¬ r.count + 1 ≤ 16 := by omega
  simp only [feed, if_neg h8, if_neg h16, if_pos h24]

/-- The accumulator of IRDEC stands for the source's: the counter capped at 63, the register modulo 256
(R115, R117). -/
structure Represents (s : State) (r : SourceAccumulator) : Prop where
  count : s.bitsReceived.toNat = min 63 r.count
  bits : s.commandBits.toNat = r.bits % 256

theorem represents_self (s : State) :
    Represents s { count := s.bitsReceived.toNat, bits := s.commandBits.toNat } where
  count := (Nat.min_eq_right (Nat.le_of_lt_succ s.bitsReceived.isLt)).symm
  bits := (Nat.mod_eq_of_lt s.commandBits.isLt).symm

theorem Represents.resync {s : State} {r : SourceAccumulator} (h : Represents s r) :
    Represents (resync s) { r with count := 0 } where
  count := rfl
  bits := h.bits

/-- The counters stay in step: one that saturates and one that does not. -/
theorem Represents.nextCount {s : State} {r : SourceAccumulator} (h : Represents s r) :
    (nextCount s.bitsReceived).toNat = min 63 (r.count + 1) := by
  rw [nextCount_toNat, h.count]
  omega

/-- The registers stay in step: what the shift loses is a multiple of 256. -/
theorem Represents.shiftIn {s : State} {r : SourceAccumulator} (h : Represents s r) (b : Bool) :
    (shiftIn s.commandBits b).toNat = (r.bits * 2 + b.toNat) % 256 := by
  rw [shiftIn_toNat, h.bits]
  omega

/-- One bit, window by window: every bound of a window lies below the cap of the counter. -/
theorem Represents.pushBit {s : State} {r : SourceAccumulator} (h : Represents s r) (b : Bool) :
    (pushBit b s).1.map BitVec.toNat = (r.feed s.protocol (some b)).1 ∧
      Represents (pushBit b s).2 (r.feed s.protocol (some b)).2 := by
  have hcount := h.count
  have hnext := h.nextCount
  have hshift := h.shiftIn b
  rcases pushBit_cases b s with ⟨h8, hp⟩ | ⟨h9, h16, hp⟩ | ⟨h17, h23, hp⟩ | ⟨h23, hp⟩ | ⟨h24, hp⟩
  · rw [hp, SourceAccumulator.feed_addressWindow _ _ (by omega)]
    refine ⟨rfl, ?_, h.bits⟩
    by_cases hjump : s.protocol = .addressLenient ∧ b = true
    · simp only [if_pos hjump]
      rfl
    · simpa only [if_neg hjump] using hnext
  · rw [hp, SourceAccumulator.feed_discarded _ _ (by omega) (by omega)]
    exact ⟨rfl, hnext, h.bits⟩
  · rw [hp, SourceAccumulator.feed_commandWindow _ _ (by omega) (by omega), if_neg (by omega)]
    exact ⟨rfl, hnext, hshift⟩
  · rw [h23] at hcount hnext
    have hr : r.count = 23 := by
      change 23 = _ at hcount
      omega
    rw [hp, SourceAccumulator.feed_commandWindow _ _ (by omega) (by omega), if_pos (by omega)]
    exact ⟨congrArg some hshift, hnext, hshift⟩
  · rw [hp, SourceAccumulator.feed_discarded _ _ (by omega) (by omega)]
    exact ⟨rfl, hnext, h.bits⟩

theorem pushBit_protocol (b : Bool) (s : State) : (pushBit b s).2.protocol = s.protocol := by
  rw [pushBit_frame]

/-- The simulation over any list of bits and resyncs. -/
theorem Represents.feedAccumulator {s : State} {r : SourceAccumulator} (h : Represents s r)
    (xs : List (Option Bool)) :
    (feedAccumulator xs s).1.map (Option.map BitVec.toNat) = (r.feedAll s.protocol xs).1 ∧
      Represents (feedAccumulator xs s).2 (r.feedAll s.protocol xs).2 := by
  induction xs generalizing s r with
  | nil => exact ⟨rfl, h⟩
  | cons x xs ih =>
    cases x with
    | none =>
      obtain ⟨hresults, hend⟩ := ih h.resync
      exact ⟨congrArg (none :: ·) hresults, hend⟩
    | some b =>
      obtain ⟨hresult, hstep⟩ := h.pushBit b
      obtain ⟨hresults, hend⟩ := ih hstep
      rw [pushBit_protocol] at hresults hend
      exact ⟨congrArg₂ List.cons hresult hresults, hend⟩

/-- Settles O50: the simulation from the accumulator that the start state stands for. -/
theorem accumulatorRefinesTheSource : Obligations.AccumulatorRefinesTheSource := by
  intro xs s
  obtain ⟨hresults, hend⟩ := (represents_self s).feedAccumulator xs
  exact ⟨hresults, hend.count, hend.bits⟩

/-! ### Bits without a resync -/

/-- A bit moves the counter on by one at least, unless it is saturated (R110, R112, R117). -/
theorem nextCount_le_pushBit (b : Bool) (s : State) :
    (nextCount s.bitsReceived).toNat ≤ (pushBit b s).2.bitsReceived.toNat := by
  rcases pushBit_cases b s with ⟨h8, h⟩ | ⟨_, _, h⟩ | ⟨_, _, h⟩ | ⟨h23, h⟩ | ⟨_, h⟩
  · have hn := nextCount_toNat s.bitsReceived
    rw [h]
    simp only
    split
    · change _ ≤ 9
      omega
    · exact Nat.le_refl _
  · rw [h]
  · rw [h]
  · rw [h, h23]
    exact Nat.le_refl 24
  · rw [h]

theorem pushBit_bitsReceived_le (b : Bool) (s : State) :
    s.bitsReceived.toNat ≤ (pushBit b s).2.bitsReceived.toNat := by
  have hn := nextCount_toNat s.bitsReceived
  have hle := nextCount_le_pushBit b s
  have hk := s.bitsReceived.isLt
  omega

theorem pushBit_bitsReceived_ne_zero (b : Bool) (s : State) : (pushBit b s).2.bitsReceived ≠ 0 := by
  have hn := nextCount_toNat s.bitsReceived
  have hle := nextCount_le_pushBit b s
  intro h0
  rw [h0] at hle
  change _ ≤ 0 at hle
  omega

theorem pushBits_bitsReceived_le (bs : List Bool) (s : State) :
    s.bitsReceived.toNat ≤ (pushBits bs s).2.bitsReceived.toNat := by
  induction bs generalizing s with
  | nil => exact Nat.le_refl _
  | cons b bs ih => exact (pushBit_bitsReceived_le b s).trans (ih _)

/-- Past the command window a bit only counts, saturating (R117). -/
theorem pushBit_pastWindow_saturating (b : Bool) {s : State} (h24 : 24 ≤ s.bitsReceived.toNat) :
    pushBit b s = (none, { s with bitsReceived := nextCount s.bitsReceived }) := by
  rcases pushBit_cases b s with ⟨h8, _⟩ | ⟨_, h16, _⟩ | ⟨_, h23, _⟩ | ⟨h23, _⟩ | ⟨_, h⟩
  · omega
  · omega
  · omega
  · simp [h23] at h24
  · exact h

/-- Only the bit that takes the counter to 24 returns a command. -/
theorem pushBit_eq_none_or_bitsReceived (b : Bool) (s : State) :
    (pushBit b s).1 = none ∨ (pushBit b s).2.bitsReceived = 24 := by
  rcases pushBit_cases b s with ⟨_, h⟩ | ⟨_, _, h⟩ | ⟨_, _, h⟩ | ⟨_, h⟩ | ⟨_, h⟩ <;> simp [h]

theorem completions_cons_none (rs : List (Option Code)) : completions (none :: rs) = completions rs :=
  rfl

theorem completions_cons_le (o : Option Code) (rs : List (Option Code)) :
    completions (o :: rs) ≤ completions rs + 1 := by
  cases o with
  | none => exact Nat.le_succ _
  | some c => exact Nat.le_refl _

/-- Past the command window no command completes any more. -/
theorem completions_pushBits_pastWindow (bs : List Bool) {s : State}
    (h24 : 24 ≤ s.bitsReceived.toNat) : completions (pushBits bs s).1 = 0 := by
  induction bs generalizing s with
  | nil => rfl
  | cons b bs ih =>
    have hnone : (pushBit b s).1 = none := by rw [pushBit_pastWindow_saturating b h24]
    simp only [pushBits, hnone, completions_cons_none]
    exact ih (h24.trans (pushBit_bitsReceived_le b s))

theorem completions_pushBits_le_one (bs : List Bool) (s : State) :
    completions (pushBits bs s).1 ≤ 1 := by
  induction bs generalizing s with
  | nil => exact Nat.zero_le _
  | cons b bs ih =>
    simp only [pushBits]
    rcases pushBit_eq_none_or_bitsReceived b s with hnone | h24
    · rw [hnone, completions_cons_none]
      exact ih _
    · -- the command of this bit is the last one
      have hrest := completions_pushBits_pastWindow bs (s := (pushBit b s).2) (by rw [h24]; decide)
      exact (completions_cons_le _ _).trans (by omega)

/-- Settles O51: the bit that completes a command leaves the counter past the command window, and it never
comes back. -/
theorem atMostOneCommandBetweenResyncs : Obligations.AtMostOneCommandBetweenResyncs :=
  fun bs s => ⟨completions_pushBits_le_one bs s, pushBits_bitsReceived_le bs s⟩

/-! ### The lenient jump -/

/-- In the address window a bit is discarded; it counts, or jumps to 9 (R111, R112). -/
theorem pushBit_addressWindow (b : Bool) {s : State} (hk : s.bitsReceived.toNat < 8) :
    pushBit b s = (none, { s with bitsReceived :=
      if s.protocol = .addressLenient ∧ b = true then 9 else s.bitsReceived + 1 }) := by
  have hn := nextCount_of_lt (k := s.bitsReceived) (by omega)
  rcases pushBit_cases b s with ⟨_, h⟩ | ⟨h9, _⟩ | ⟨h17, _⟩ | ⟨h23, _⟩ | ⟨h24, _⟩
  · rw [h, hn]
    rfl
  · omega
  · omega
  · simp [h23] at hk
  · omega

/-- A zero in the address window only counts, under either protocol (R111, R112). -/
theorem pushBit_false_addressWindow {s : State} (hk : s.bitsReceived.toNat < 8) :
    pushBit false s = (none, { s with bitsReceived := s.bitsReceived + 1 }) := by
  rw [pushBit_addressWindow false hk, if_neg (by simp)]

/-- Under AddressLenient a one up to position 9 takes the counter to 9: by the jump, or since 9 comes
next (R112, R113). -/
theorem pushBit_true_lenient {s : State} (hlenient : s.protocol = .addressLenient)
    (hk : s.bitsReceived.toNat ≤ 8) : pushBit true s = (none, { s with bitsReceived := 9 }) := by
  rcases Nat.lt_or_eq_of_le hk with hlt | h8
  · rw [pushBit_addressWindow true hlt, if_pos ⟨hlenient, rfl⟩]
  · have h8' : s.bitsReceived = 8#6 := BitVec.eq_of_toNat_eq h8
    rw [pushBit_beforeWindow true (by omega) (.inr (Nat.le_of_eq h8.symm)), h8']
    rfl

/-- Zeros in the address window, as many as fit there. -/
theorem pushBits_zeros (n : Nat) {s : State} (hfit : s.bitsReceived.toNat + n ≤ 8) :
    pushBits (List.replicate n false) s =
      (List.replicate n none, { s with bitsReceived := s.bitsReceived + BitVec.ofNat 6 n }) := by
  induction n generalizing s with
  | zero => simp [pushBits]
  | succ n ih =>
    have hsucc := count_succ_toNat (k := s.bitsReceived) (by omega)
    have hrest := ih (s := { s with bitsReceived := s.bitsReceived + 1 }) (by simp only [hsucc]; omega)
    simp only [List.replicate_succ, pushBits, pushBit_false_addressWindow (s := s) (by omega), hrest]
    rw [count_succ_add]

/-- Under AddressLenient eight ones from the address window lead to the command window: one to 9, seven
more to 16. -/
theorem pushBits_eightOnes_lenient {s : State} (hlenient : s.protocol = .addressLenient)
    (hk : s.bitsReceived.toNat ≤ 8) :
    pushBits (List.replicate 8 true) s = (List.replicate 8 none, { s with bitsReceived := 16 }) := by
  have hseven := pushBits_beforeWindow (List.replicate 7 true) (s := { s with bitsReceived := 9 })
    (Nat.le_refl 16) (.inr (Nat.le_succ 8))
  simp only [List.replicate_succ (n := 7), pushBits, pushBit_true_lenient hlenient hk, hseven]
  rfl

/-- Settles O53: the zeros stay in the address window, the ones leave it for the command window wherever
they found the counter, and the byte fills it. -/
theorem lenientRecoversDroppedAddressBits : Obligations.LenientRecoversDroppedAddressBits := by
  intro s zeros c hlenient h0 hzeros
  have hcount : (s.bitsReceived + BitVec.ofNat 6 zeros).toNat ≤ 8 := by
    simp only [h0, BitVec.ofNat_eq_ofNat, BitVec.zero_add, BitVec.toNat_ofNat]
    omega
  have hzerosRun := pushBits_zeros zeros (s := s) (by simpa [h0] using hzeros)
  have honesRun := pushBits_eightOnes_lenient
    (s := { s with bitsReceived := s.bitsReceived + BitVec.ofNat 6 zeros }) hlenient hcount
  simp only [pushBits_append, hzerosRun, honesRun]
  rw [pushBits_msbFirst c rfl, ← List.append_assoc, List.replicate_append_replicate,
    List.replicate_append_replicate]

end Sys2Proof.Machine

/-! PROOFS. The transactions of the EDGE port one by one (spec/40_edge_decode.md R100 to R116, R130 to
R134). -/

namespace Sys2Proof.Machine

/-! ### MARK -/

/-- MARK latches its duration once attached, and only ends the outputs of the step before (R130, R134). -/
theorem exec_mark (d : Dur) (s : State) :
    exec (.mark d) s = .next { s with
      markLatch := if s.attached then d else s.markLatch, out := Output.quiet } := by
  refine congrArg Host.Outcome.next ?_
  by_cases ha : s.attached = true
  · rw [if_pos ha, if_pos ha]
    rfl
  · rw [if_neg ha, if_neg ha]
    rfl

theorem exec_space_detached (d : Dur) {s : State} (h : s.attached = false) :
    exec (.space d) s = .next s.quiet := by
  rcases execSpace_cases s d with ⟨_, hx⟩ | ⟨ha, _⟩ | ⟨ha, _⟩ | ⟨ha, _⟩
  · exact hx
  all_goals simp [h] at ha

/-- Settles O6: before the first ATTACH neither transaction writes a register. -/
theorem edgesBeforeAttachAreLost : Obligations.EdgesBeforeAttachAreLost := by
  intro s d h
  refine ⟨?_, exec_space_detached d h⟩
  rw [exec_mark, h]
  rfl

/-- A word that spells no transaction of its source is illegal there (R202, R203). -/
theorem illegalOn_of_undecodable {src : Source} {w : TWord}
    (h : ∀ i, decode w = .ok i → i.op.source ≠ src) : IllegalOn src w := by
  intro s
  rw [perform_of_illegal h s]
  cases src <;> rfl

/-- A word with the opcode of MARK decodes to MARK of its ARG, if it decodes at all (R81, R85). -/
theorem decode_ok_of_opField_mark {w : TWord} {i : Instr} (hop : opField w = 0x1#4)
    (h : decode w = .ok i) : subField w = 0 ∧ i = .mark (argField w) := by
  obtain ⟨op, hsel, rfl⟩ := (decode_ok_iff w i).1 h
  obtain rfl : op = .mark :=
    Op.opcode_inj _ _ (((Op.selects_iff op w).1 hsel).1.symm.trans hop)
  exact ⟨((Op.selects_iff_fields .mark w).1 hsel).2, rfl⟩

theorem decodeFor_mark {w : TWord} (hop : opField w = 0x1#4) (hsub : subField w = 0#4) :
    decodeFor .edge w = .ok (.mark (argField w)) := by
  refine (decodeFor_ok_iff _ _ _).2 ⟨?_, rfl⟩
  exact decode_of_selects .mark w ((Op.selects_iff_fields .mark w).2 ⟨hop, hsub⟩)

/-- Settles O7: the equation of MARK twice, and the only decoding of a word with its opcode. -/
theorem markLatchesTheDuration : Obligations.MarkLatchesTheDuration := by
  refine ⟨fun s d => exec_mark d s, fun s d d' ha => ?_, fun w hop =>
    ⟨decodeFor_mark hop, fun hsub => ?_, ?_⟩⟩
  · rw [runInstrs_cons _ (exec_mark d s), runInstrs_cons _ (exec_mark d' _)]
    simp [runInstrs, ha, Output.quiet]
  · exact illegalOn_of_undecodable fun i h => absurd (decode_ok_of_opField_mark hop h).1 hsub
  · refine illegalOn_of_undecodable fun i h => ?_
    rw [(decode_ok_of_opField_mark hop h).2]
    nofun

/-! ### The classifier -/

/-- The two bands above the repeat symbol (R100). -/
theorem classify_start {cfg : Config} {d : CombinedDur} (hw : cfg.wf = true)
    (h : cfg.tStart ≤ d.toNat) :
    classify cfg d = if d.toNat < cfg.tNoise then .frameStart else .incomplete := by
  have := Config.wf_thresholds hw
  unfold classify
  rw [if_neg (by omega), if_neg (by omega), if_neg (by omega)]

/-- Settles O8: the bands of a bit, of the repeat symbol, and above it, at this hardware's thresholds. -/
theorem classifierBands : Obligations.ClassifierBands := by
  intro d
  have hw : Config.hardware.wf = true := by decide
  have hbit (h : d.toNat < 2700) : classify Config.hardware d = if 1600 ≤ d.toNat then .bit1 else .bit0 :=
    classify_bit h
  have hlong (h : 12500 ≤ d.toNat) :
      classify Config.hardware d = if d.toNat < 14500 then .frameStart else .incomplete :=
    classify_start hw h
  refine ⟨fun h => ?_, fun h h' => ?_, classify_repeat hw, fun h h' => ?_, fun h => ?_⟩
  · rw [hbit (by omega), if_neg (by omega)]
  · rw [hbit h', if_pos h]
  · rw [hlong h, if_pos h']
  · rw [hlong (by omega), if_neg (by omega)]

/-! ### SPACE on a non-bit symbol -/

/-- Settles O10: either long symbol is the resync and nothing else. -/
theorem spaceFrameStartOrNoise : Obligations.SpaceFrameStartOrNoise :=
  execSpace_long

/-- A non-bit symbol resyncs the accumulator, whatever reaches the engine (R102). -/
theorem execSpace_nonBit {s : State} {d : Dur} (ha : s.attached = true) (hw : s.cfg.wf = true)
    (h : s.cfg.tRepeat ≤ spaceSum s d) :
    ∃ t, exec (.space d) s = .next t ∧ t.bitsReceived = 0 ∧ t.commandBits = s.commandBits := by
  rcases Nat.lt_or_ge (spaceSum s d) s.cfg.tStart with hrepeat | hlong
  · refine ⟨_, execSpace_repeat s d ha hw h hrepeat, ?_⟩
    rw [debounceRepeat_eq]
    exact ⟨rfl, rfl⟩
  · exact ⟨_, execSpace_long s d ha hw hlong, rfl, rfl⟩

/-! ### SPACE on a bit -/

/-- SPACE on a bit leaves the counter where PUSH_BIT put it: the engine does not write it. -/
theorem execSpace_bit_bitsReceived {s : State} {d : Dur} (ha : s.attached = true)
    (h : spaceSum s d < s.cfg.tRepeat) :
    ∃ t, exec (.space d) s = .next t ∧
      t.bitsReceived = (pushBit (sumBit s.cfg (spaceSum s d)) s.quiet).2.bitsReceived := by
  refine ⟨_, execSpace_bit s d ha h, ?_⟩
  rcases pushBit (sumBit s.cfg (spaceSum s d)) s.quiet with ⟨_ | c, t⟩
  · rfl
  · exact debounceCmd_bitsReceived c t

/-- SPACE on a bit that completes no command is its PUSH_BIT alone (R125, R131). -/
theorem execSpace_bit_of_none {s t : State} {d : Dur} (ha : s.attached = true)
    (h : spaceSum s d < s.cfg.tRepeat)
    (hnone : pushBit (sumBit s.cfg (spaceSum s d)) s.quiet = (none, t)) :
    exec (.space d) s = .next t := by
  rw [execSpace_bit s d ha h, hnone]

/-- Settles O9: by the band of the sum; a bit always leaves the counter above 0. -/
theorem nonBitSymbolsResync : Obligations.NonBitSymbolsResync := by
  intro s d ha hw
  refine ⟨execSpace_nonBit ha hw, fun hbit => ?_⟩
  obtain ⟨t, hx, ht⟩ := execSpace_bit_bitsReceived ha hbit
  exact ⟨t, hx, ht ▸ pushBit_bitsReceived_ne_zero _ _⟩

/-- Settles O12: in each window outside the command's, PUSH_BIT returns nothing and moves the counter. -/
theorem spaceBitsOutsideTheCommandWindow : Obligations.SpaceBitsOutsideTheCommandWindow := by
  intro s d ha hbit
  refine ⟨fun h8 => ?_, fun h9 h16 => ?_, fun h24 => ?_⟩
  · have hpush := pushBit_addressWindow (sumBit s.cfg (spaceSum s d)) (s := s.quiet) h8
    rw [execSpace_bit_of_none ha hbit hpush]
    simp [State.quiet, sumBit]
  · exact execSpace_bit_of_none ha hbit
      (pushBit_beforeWindow _ (s := s.quiet) h16 (.inr (Nat.le_of_lt_succ h9)))
  · exact execSpace_bit_of_none ha hbit
      (pushBit_pastWindow_saturating _ (s := s.quiet) (Nat.le_of_lt_succ h24))

/-- Settles O13: positions 17 to 23 lie in the command window before its last bit. -/
theorem spaceCommandWindowShifts : Obligations.SpaceCommandWindowShifts := by
  intro s d ha _ hbit h17 h23
  have hpush := pushBit_inWindow (sumBit s.cfg (spaceSum s d)) (s := s.quiet)
    (Nat.le_of_succ_le_succ h17) h23
  rw [execSpace_bit_of_none ha hbit hpush, shiftIn_eq]
  simp [State.quiet, sumBit]

end Sys2Proof.Machine

/-! PROOFS. The two timers and the step (spec/41_debounce_repeat.md R145 to R153): what a transaction does
to `tick_due` and `repeat_deadline`, that no step passes the next TICK, and what follows for the release
of a held code. -/

namespace Sys2Proof.Machine

/-! ### Times modulo 2^32 -/

/-- As the clock goes on from `n` to `m` without passing the 32-bit time `x`, `x` comes nearer by as much. -/
theorem toNat_sub_ofNat_add {x : Time} {n m : Nat} (hle : n ≤ m)
    (hnear : m ≤ n + (x - BitVec.ofNat 32 n).toNat) :
    (x - BitVec.ofNat 32 m).toNat + (m - n) = (x - BitVec.ofNat 32 n).toNat := by
  have hx := x.isLt
  simp only [BitVec.toNat_sub, BitVec.toNat_ofNat] at hnear ⊢
  omega

/-- At most 240 ms before a deadline's latest release, the comparison of R145 is decided by the distance
to it (R152). -/
theorem after_deadline_iff {s : State} (h : untilLatestRelease s ≤ 240) :
    after s.now s.repeatDeadline = true ↔ untilLatestRelease s < 120 := by
  have hnow := s.now.isLt
  have hdeadline := s.repeatDeadline.isLt
  rw [after_eq_true_iff]
  simp only [untilLatestRelease, BitVec.toNat_sub, BitVec.toNat_add, BitVec.toNat_ofNat] at h ⊢
  omega

/-- The latest release is 240 ms after the refresh (R153). -/
theorem sinceRefresh_add_untilLatestRelease {s : State} (h : untilLatestRelease s ≤ 240) :
    (s.now - (s.repeatDeadline - 120#32)).toNat + untilLatestRelease s = 240 := by
  have hnow := s.now.isLt
  have hdeadline := s.repeatDeadline.isLt
  simp only [untilLatestRelease, BitVec.toNat_sub, BitVec.toNat_add, BitVec.toNat_ofNat] at h ⊢
  omega

theorem untilTick_of_due {s : State} {d : Time} (h : s.tickDue = s.now + d) : untilTick s = d.toNat := by
  rw [untilTick, h, add_sub_cancel_left]

/-- Right after a refresh of the 120 ms window. -/
theorem untilLatestRelease_of_refresh {s : State} (h : s.repeatDeadline = s.now + 120#32) :
    untilLatestRelease s = 240 := by
  rw [untilLatestRelease, h, BitVec.add_assoc, add_sub_cancel_left]
  rfl

/-! ### What a transaction does to the timers -/

/-- What a transaction can do to the timers, and to the held code as they see it. -/
inductive TimerMove (s t : State) : Prop
  /-- Neither timer moves. -/
  | rests (attached : t.attached = s.attached) (held : t.held = s.held)
      (deadline : t.repeatDeadline = s.repeatDeadline) (due : t.tickDue = s.tickDue)
  /-- The first ATTACH starts the scheduler (R170). -/
  | attaches (detached : s.attached = false) (held : t.held = s.held)
      (due : t.tickDue = s.now)
  /-- A refresh leaves a code held (R141 to R143). -/
  | refreshes (before : s.attached = true) (attached : t.attached = true) (held : t.held = true)
      (deadline : t.repeatDeadline = s.now + s.cfg.repeatWindowMs) (due : t.tickDue = s.tickDue)
  /-- A TICK that releases (R145, R147). -/
  | releases (attached : t.attached = s.attached) (before : s.held = true)
      (past : after s.now s.repeatDeadline = true) (held : t.held = false)
      (due : t.tickDue = s.now + 2 * s.cfg.repeatWindowMs)
  /-- A TICK while Held, before the deadline or at it (R146, R147). -/
  | waits (attached : t.attached = s.attached) (before : s.held = true)
      (notPast : ¬ after s.now s.repeatDeadline = true) (held : t.held = true)
      (deadline : t.repeatDeadline = s.repeatDeadline)
      (due : t.tickDue = s.now + s.cfg.repeatWindowMs)
  /-- A TICK while Idle (R146, R147). -/
  | idles (attached : t.attached = s.attached) (before : s.held = false) (held : t.held = false)
      (due : t.tickDue = s.now + 2 * s.cfg.repeatWindowMs)

/-- An illegal transaction leaves the timers (R203). -/
theorem raiseIllegal_timerMove (src : Source) (s : State) : TimerMove s (s.raiseIllegal src) :=
  .rests rfl rfl rfl rfl

/-- DEBOUNCE_CMD, after the accumulator has moved: a refresh, or nothing. -/
theorem debounceCmd_timerMove (c bits : Code) (k : BitVec 6) {s : State} (ha : s.attached = true) :
    TimerMove s (debounceCmd c { s.quiet with commandBits := bits, bitsReceived := k }) := by
  have hheld {t : State} (ht : t.activeCommand = wireCode c) : t.held = true :=
    (held_iff t).2 (ht ▸ wireCode_ne_none c)
  rcases debounceCmd_cases c { s.quiet with commandBits := bits, bitsReceived := k } with
    ⟨-, hx⟩ | ⟨-, -, hx⟩ | ⟨hsame, hx⟩ <;> rw [hx]
  · exact .refreshes ha ha (hheld rfl) rfl rfl
  · exact .refreshes ha ha (hheld rfl) rfl rfl
  · by_cases hrefresh : s.cfg.sameCodeRefresh = true
    · exact .refreshes ha ha (hheld hsame) (if_pos hrefresh) rfl
    · exact .rests rfl rfl (if_neg hrefresh) rfl

theorem execSpace_timerMove {s t : State} {d : Dur} (h : exec (.space d) s = .next t) :
    TimerMove s t := by
  by_cases ha : s.attached = true
  · cases execSpace_effect h with
    | counts | shifts => exact .rests rfl rfl rfl rfl
    | completes => exact debounceCmd_timerMove _ _ _ ha
    | repeats =>
      rw [debounceRepeat_eq]
      by_cases hheld : (resync s.quiet).held = true
      · rw [if_pos hheld]
        exact .refreshes ha ha hheld rfl rfl
      · rw [if_neg hheld]
        exact .rests rfl rfl rfl rfl
  · cases (exec_space_detached d (by simpa using ha)).symm.trans h
    exact .rests rfl rfl rfl rfl

theorem execTick_timerMove {s t : State} (h : exec .tick s = .next t) : TimerMove s t := by
  rcases execTick_cases s with ⟨hheld, hpast, hx⟩ | ⟨hnot, hx⟩ <;> cases hx.symm.trans h
  · exact .releases rfl hheld hpast rfl rfl
  · by_cases hheld : s.held = true
    · rw [if_pos hheld]
      exact .waits rfl hheld (fun hpast => hnot ⟨hheld, hpast⟩) hheld rfl rfl
    · have hidle : s.held = false := by simpa using hheld
      rw [if_neg hheld]
      exact .idles rfl hidle hidle rfl

theorem exec_timerMove {i : Instr} {s t : State} (h : exec i s = .next t) : TimerMove s t := by
  cases i with
  | space d => exact execSpace_timerMove h
  | tick => exact execTick_timerMove h
  | mark d =>
    cases (exec_mark d s).symm.trans h
    exact .rests rfl rfl rfl rfl
  | attach p src =>
    rcases execAttach_cases p src s with ⟨_, hx⟩ | ⟨hdetached, hx⟩ <;> cases hx.symm.trans h
    · exact .rests rfl rfl rfl rfl
    · exact .attaches hdetached rfl rfl
  | subscribe a hh b =>
    rcases execSubscribe_cases a hh b s with ⟨_, hx⟩ | ⟨_, _, _, hx⟩ | ⟨_, _, _, hx⟩ <;>
      cases hx.symm.trans h <;> exact .rests rfl rfl rfl rfl
  | buttonCode b =>
    rcases execButtonCode_cases b s with ⟨_, hx⟩ | ⟨_, _, hx⟩ <;> cases hx.symm.trans h <;>
      exact .rests rfl rfl rfl rfl
  | currentButton | wasPressed | readStatus => cases h; exact .rests rfl rfl rfl rfl

/-! ### The time of a step -/

/-- Nothing on offer lies past the horizon (R66, R149). -/
theorem arrival_time_le_horizon {s : State} {a : Arrival} (hok : s.traceOk = true)
    (ha : a ∈ arrivals s) : a.time ≤ s.horizon := by
  have hport {p : Port} (h : portArrival p s = some a) : a.time ≤ s.horizon := by
    obtain ⟨x, hx, rfl⟩ := portArrival_eq_some h
    exact (traceOrdered_mem hok (firstOn_mem hx).1).2
  rcases (mem_arrivals_iff s a).1 ha with h | h | h
  · exact hport h
  · exact hport h
  · obtain ⟨-, hdue, rfl⟩ := tickArrival_eq_some h
    exact hdue

/-- The scheduler's offer, when a TICK is due by the horizon (R148, R149). -/
theorem tickArrival_of_due {s : State} (ha : s.attached = true) (hdue : nextTickTime s ≤ s.horizon) :
    tickArrival s =
      some { source := .scheduler, time := nextTickTime s, word := 0x3000000000#40 } :=
  if_pos ⟨ha, hdue⟩

/-- Nothing overtakes a TICK that is due by the horizon (R62, R149). -/
theorem ready_time_le_tick {s : State} {a : Arrival} (ha : a ∈ ready s) (hattached : s.attached = true)
    (hdue : nextTickTime s ≤ s.horizon) : a.time ≤ nextTickTime s :=
  ((mem_ready_iff s a).1 ha).2 _
    ((mem_arrivals_iff s _).2 (.inr (.inr (tickArrival_of_due hattached hdue))))

/-- Once attached, no step passes the next TICK: one past the horizon comes after all that is left. -/
theorem step_time_le_tick {s t : State} (h : step s = .next t) (hattached : s.attached = true) :
    t.time ≤ nextTickTime s := by
  obtain ⟨a, ha, htime, -⟩ := step_run h
  rw [htime]
  rcases Nat.lt_or_ge s.horizon (nextTickTime s) with hlate | hdue
  · exact (arrival_time_le_horizon (step_next h).1 ((mem_ready_iff s a).1 ha).1).trans hlate.le
  · exact ready_time_le_tick ha hattached hdue

/-- A step moves the timers from the state in which its transaction runs, at the step's time. -/
theorem step_timerMove {s t : State} (h : step s = .next t) :
    ∃ u, SameMachine s u ∧ u.time = t.time ∧ TimerMove u t := by
  obtain ⟨u, hu, ⟨i, -, hi⟩ | ⟨src, rfl⟩⟩ := step_transaction h
  · exact ⟨u, hu, (exec_keeps_run hi).2.1.symm, exec_timerMove hi⟩
  · exact ⟨u, hu, rfl, raiseIllegal_timerMove src u⟩

/-! ### The timer invariant -/

theorem TimingOk.attached_of_held {s : State} (h : TimingOk s) (hheld : s.held = true) :
    s.attached = true := by
  by_contra ha
  simp [h.idle_before_attach (by simpa using ha)] at hheld

/-- The next TICK comes nearer as time passes. -/
theorem SameMachine.untilTick_add {s u : State} (hu : SameMachine s u) (hle : s.time ≤ u.time)
    (hnear : u.time ≤ nextTickTime s) : untilTick u + (u.time - s.time) = untilTick s := by
  have hdue : u.tickDue = s.tickDue := by rw [hu]
  rw [untilTick, hdue]
  exact toNat_sub_ofNat_add hle hnear

/-- While a code is held, its latest release comes nearer as time passes. -/
theorem SameMachine.untilLatestRelease_add {s u : State} (hu : SameMachine s u) (h : TimingOk s)
    (hheld : s.held = true) (hle : s.time ≤ u.time) (hnear : u.time ≤ nextTickTime s) :
    untilLatestRelease u + (u.time - s.time) = untilLatestRelease s := by
  have hdeadline : u.repeatDeadline = s.repeatDeadline := by rw [hu]
  rw [untilLatestRelease, hdeadline]
  exact toNat_sub_ofNat_add hle
    (hnear.trans (Nat.add_le_add_left (h.tick_before_release hheld) _))

/-- Waiting for a transaction keeps the invariant, as long as no TICK is passed. -/
theorem SameMachine.keeps_timingOk {s u : State} (hu : SameMachine s u) (h : TimingOk s)
    (hle : s.time ≤ u.time) (hnear : s.attached = true → u.time ≤ nextTickTime s) : TimingOk u := by
  have hattached : u.attached = s.attached := by rw [hu]
  have hheld : u.held = s.held := by rw [hu]; rfl
  have htick (ha : s.attached = true) := hu.untilTick_add hle (hnear ha)
  have hrelease (hh : s.held = true) :=
    hu.untilLatestRelease_add h hh hle (hnear (h.attached_of_held hh))
  refine ⟨by rw [hu]; exact h.window, ?_, ?_, ?_, ?_⟩ <;> simp only [hattached, hheld]
  · exact h.idle_before_attach
  · intro ha
    have := htick ha
    have := h.tick_near ha
    omega
  · intro hh
    have := hrelease hh
    have := h.release_near hh
    omega
  · intro hh
    have := hrelease hh
    have := htick (h.attached_of_held hh)
    have := h.tick_before_release hh
    omega

/-- The invariant of an Idle machine, from how far off its next TICK is. -/
theorem timingOk_of_idle {s : State} (hw : s.cfg.repeatWindowMs = 120#32) (hidle : s.held = false)
    (htick : s.attached = true → untilTick s ≤ 240) : TimingOk s :=
  ⟨hw, fun _ => hidle, htick, by simp [hidle], by simp [hidle]⟩

/-- The invariant while a code is held, from how far off the next TICK and the latest release are. -/
theorem timingOk_of_held {s : State} (hw : s.cfg.repeatWindowMs = 120#32) (ha : s.attached = true)
    (htick : untilTick s ≤ untilLatestRelease s) (hrelease : untilLatestRelease s ≤ 240) :
    TimingOk s :=
  ⟨hw, by simp [ha], fun _ => htick.trans hrelease, fun _ => hrelease, fun _ => htick⟩

/-- Each move of the timers keeps the invariant, since it takes no time. -/
theorem TimerMove.keeps_timingOk {s t : State} (hm : TimerMove s t) (h : TimingOk s)
    (hcfg : t.cfg = s.cfg) (htime : t.time = s.time) : TimingOk t := by
  have hw : t.cfg.repeatWindowMs = 120#32 := hcfg ▸ h.window
  have hnow : t.now = s.now := congrArg (BitVec.ofNat 32) htime
  cases hm with
  | rests attached held deadline due =>
    have htick : untilTick t = untilTick s := by rw [untilTick, due, hnow]; rfl
    have hrelease : untilLatestRelease t = untilLatestRelease s := by
      rw [untilLatestRelease, deadline, hnow]; rfl
    refine ⟨hw, ?_, ?_, ?_, ?_⟩ <;> simp only [attached, held, htick, hrelease]
    · exact h.idle_before_attach
    · exact h.tick_near
    · exact h.release_near
    · exact h.tick_before_release
  | attaches detached held due =>
    have htick : untilTick t = 0 := by rw [untilTick, due, hnow, BitVec.sub_self]; rfl
    exact timingOk_of_idle hw (held.trans (h.idle_before_attach detached)) fun _ => by omega
  | refreshes before attached held deadline due =>
    have htick : untilTick t = untilTick s := by rw [untilTick, due, hnow]; rfl
    have hrelease := untilLatestRelease_of_refresh (s := t) (by rw [deadline, h.window, hnow])
    have := h.tick_near before
    exact timingOk_of_held hw attached (by omega) hrelease.le
  | releases attached before past held due =>
    have htick := untilTick_of_due (s := t) (d := 240#32) (by rw [due, h.window, hnow]; rfl)
    exact timingOk_of_idle hw held fun _ => htick.le
  | idles attached before held due =>
    have htick := untilTick_of_due (s := t) (d := 240#32) (by rw [due, h.window, hnow]; rfl)
    exact timingOk_of_idle hw held fun _ => htick.le
  | waits attached before notPast held deadline due =>
    have htick := untilTick_of_due (s := t) (d := 120#32) (by rw [due, h.window, hnow])
    have hrelease : untilLatestRelease t = untilLatestRelease s := by
      rw [untilLatestRelease, deadline, hnow]; rfl
    have hnear := h.release_near before
    rw [after_deadline_iff hnear] at notPast
    exact timingOk_of_held hw (attached.trans (h.attached_of_held before))
      (by rw [htick, hrelease]; exact Nat.le_of_not_lt notPast) (by omega)

/-- The transaction of a step runs in a state of the invariant, and moves the timers from there. -/
theorem step_timerMove_of_timingOk {s t : State} (hs : TimingOk s) (h : step s = .next t) :
    ∃ u, SameMachine s u ∧ TimingOk u ∧ u.time = t.time ∧ TimerMove u t := by
  obtain ⟨u, hu, htime, hm⟩ := step_timerMove h
  refine ⟨u, hu, hu.keeps_timingOk hs ?_ fun ha => ?_, htime, hm⟩
  · exact htime ▸ (stepKeepsTheRunWellFormed s t h).1
  · exact htime ▸ step_time_le_tick h ha

/-- Settles O32: waiting up to the next TICK keeps the invariant, and so does each move of the timers. -/
theorem stepKeepsTimingOk : Obligations.StepKeepsTimingOk := by
  intro s t hs h
  obtain ⟨u, hu, hok, htime, hm⟩ := step_timerMove_of_timingOk hs h
  refine hm.keeps_timingOk hok ?_ htime.symm
  rw [step_keeps_cfg h, hu]

end Sys2Proof.Machine

/-! PROOFS. What the timer invariant says of a held code (spec/41_debounce_repeat.md R148 to R153): the
comparison of the next TICK, the window of a release, the scheduler alone, and the release in silence. -/

namespace Sys2Proof.Machine

/-! ### The comparison and the window of a release -/

/-- Settles O33: the next TICK and the latest release are both at most 240 ms off, the TICK first. -/
theorem tickComparesWithin120Ms : Obligations.TickComparesWithin120Ms := by
  intro s hs _ hheld
  have hrelease := hs.release_near hheld
  have htick := hs.tick_before_release hheld
  have hnow := s.now.isLt
  have hdue := s.tickDue.isLt
  have hdeadline := s.repeatDeadline.isLt
  simp only [untilTick, untilLatestRelease, BitVec.toNat_sub, BitVec.toNat_add, BitVec.toNat_ofNat]
    at hrelease htick
  simp only [BitVec.toInt_eq_toNat_cond, BitVec.toNat_sub]
  omega

/-- Of the moves of the timers only a release lets go of a held code. -/
theorem TimerMove.past_of_released {s t : State} (hm : TimerMove s t) (hheld : s.held = true)
    (hidle : t.held = false) : after s.now s.repeatDeadline = true := by
  cases hm with
  | releases _ _ past _ _ => exact past
  | refreshes _ _ held _ _ | waits _ _ _ held _ _ => simp [held] at hidle
  | rests _ held _ _ | attaches _ held _ => simp [held, hheld] at hidle
  | idles _ before _ _ => simp [before] at hheld

/-- Settles O34: the TICK that releases finds the deadline past, and the latest release not yet. -/
theorem timeoutReleaseWindow : Obligations.TimeoutReleaseWindow := by
  intro s t hs hheld hstep hidle
  obtain ⟨u, hu, hok, htime, hm⟩ := step_timerMove_of_timingOk hs hstep
  have hdeadline : u.repeatDeadline = s.repeatDeadline := by rw [hu]
  have hnow : u.now = t.now := congrArg (BitVec.ofNat 32) htime
  have huheld : u.held = true := by rw [hu]; exact hheld
  have hnear := hok.release_near huheld
  have hpast := (after_deadline_iff hnear).1 (hm.past_of_released huheld hidle)
  have hsum := sinceRefresh_add_untilLatestRelease hnear
  rw [hdeadline, hnow] at hsum
  omega

/-! ### The scheduler -/

theorem decode_tickWord : decode 0x3000000000#40 = .ok .tick := decode_encode .tick

/-- Settles O40: the scheduler's one offer is the TICK, and an arrival that is taken is an earliest one. -/
theorem tickPlacement : Obligations.TickPlacement := by
  intro s s' a harb
  have hready := (arbitrate_some harb).1
  refine ⟨fun hsrc => ?_, ready_time_le_tick hready⟩
  rcases (mem_arrivals_iff s a).1 ((mem_ready_iff s a).1 hready).1 with h | h | h
  · obtain ⟨x, -, rfl⟩ := portArrival_eq_some h
    cases hsrc
  · obtain ⟨x, -, rfl⟩ := portArrival_eq_some h
    cases hsrc
  · obtain ⟨hattached, hdue, rfl⟩ := tickArrival_eq_some h
    exact ⟨hattached, nextTickTime_mod s, hdue, decode_tickWord⟩

/-- With no input left, the TICK is all that is on offer. -/
theorem arrivals_of_no_input {s : State} (ha : s.attached = true) (htrace : s.trace = [])
    (hdue : nextTickTime s ≤ s.horizon) :
    arrivals s = [{ source := .scheduler, time := nextTickTime s, word := 0x3000000000#40 }] := by
  simp [arrivals, portArrival, htrace, firstOn, tickArrival_of_due ha hdue]

/-- Settles O38: the one offer is taken, and its word is TICK. -/
theorem schedulerIssuesTheTick : Obligations.SchedulerIssuesTheTick := by
  intro s ha htrace hdue
  refine ⟨?_, nextTickTime_mod s⟩
  have hok : s.traceOk = true := by rw [State.traceOk, htrace]; rfl
  have hready := ready_of_arrivals_cons (arrivals_of_no_input ha htrace hdue) (by simp)
  rw [step_of_arbitrate hok (arbitrate_of_ready_single hready)]
  exact perform_of_decode decode_tickWord rfl _

/-! ### Silence -/

/-- A code is held and no input is to come. -/
structure HeldInSilence (s : State) : Prop where
  timing : TimingOk s
  held : s.held = true
  no_input : s.trace = []

/-- The state at the next TICK. -/
def State.atTick (s : State) : State := { s with time := nextTickTime s }

theorem HeldInSilence.untilLatestRelease_atTick {s : State} (hs : HeldInSilence s) :
    untilLatestRelease s.atTick + untilTick s = untilLatestRelease s := by
  have hsame : SameMachine s s.atTick := rfl
  have h := hsame.untilLatestRelease_add hs.timing hs.held (nextTickTime_ge s) le_rfl
  have hwait : s.atTick.time - s.time = untilTick s := Nat.add_sub_cancel_left ..
  rwa [hwait] at h

/-- The TICK at which a held code stays held, 120 ms before the next one (R146, R147). -/
def State.afterWait (s : State) : State :=
  { s.atTick with tickDue := s.atTick.now + 120#32, out := Output.quiet }

theorem untilTick_afterWait (s : State) : untilTick s.afterWait = 120 :=
  untilTick_of_due (d := 120#32) rfl

/-- In silence the next step is a TICK. It releases, or the latest release is then 120 ms off or more and
the code stays held (R145, R146). -/
theorem HeldInSilence.step_cases {s : State} (hs : HeldInSilence s) (hdue : nextTickTime s ≤ s.horizon) :
    (∃ t, step s = .next t ∧ t.held = false ∧
      t.out.events = [record s.subTable .released s.heldCode]) ∨
    (untilTick s + 120 ≤ untilLatestRelease s ∧ step s = .next s.afterWait) := by
  have hstep := (schedulerIssuesTheTick s (hs.timing.attached_of_held hs.held) hs.no_input hdue).1
  have hheld : s.atTick.held = true := hs.held
  have hrelease := hs.untilLatestRelease_atTick
  have hnear := hs.timing.release_near hs.held
  rcases execTick_cases s.atTick with ⟨-, -, hx⟩ | ⟨hnot, hx⟩
  · exact .inl ⟨_, hstep.trans hx, rfl, rfl⟩
  · have hwait : ¬ untilLatestRelease s.atTick < 120 := fun h =>
      hnot ⟨hheld, (after_deadline_iff (by omega)).2 h⟩
    have hwindow : s.atTick.cfg.repeatWindowMs = 120#32 := hs.timing.window
    rw [if_pos hheld, hwindow] at hx
    exact .inr ⟨by omega, hstep.trans hx⟩

/-- A run of one step more, from its first step. -/
theorem runSteps_cons {n : Nat} {s m t : State} {evs : List EventRecord} (hstep : step s = .next m)
    (h : runSteps n m = some (t, evs)) : runSteps (n + 1) s = some (t, m.out.events ++ evs) := by
  simp [runSteps, hstep, h]

/-- In silence, each TICK releases or brings the latest release 120 ms nearer to the next TICK. -/
theorem HeldInSilence.releases (n : Nat) {s : State} (hs : HeldInSilence s)
    (hslack : untilLatestRelease s < untilTick s + 120 * n)
    (hhorizon : nextTickTime s + 120 * n ≤ s.horizon + 120) :
    ∃ k t, k ≤ n ∧ runSteps k s = some (t, [record s.subTable .released s.heldCode]) ∧
      t.held = false ∧
      120 < (t.now - (s.repeatDeadline - 120#32)).toNat ∧
      (t.now - (s.repeatDeadline - 120#32)).toNat ≤ 240 := by
  induction n generalizing s with
  | zero => exact absurd (hs.timing.tick_before_release hs.held) (by omega)
  | succ n ih =>
    rcases hs.step_cases (by omega) with ⟨t, hstep, hidle, hevents⟩ | ⟨hwait, hstep⟩
    · have hrun := runSteps_cons hstep (n := 0) rfl
      rw [hevents] at hrun
      exact ⟨1, t, by omega, hrun, hidle, timeoutReleaseWindow s t hs.timing hs.held hstep hidle⟩
    · have hnext : HeldInSilence s.afterWait :=
        ⟨stepKeepsTimingOk s _ hs.timing hstep, hs.held, hs.no_input⟩
      have htick := untilTick_afterWait s
      have hrelease : untilLatestRelease s.afterWait + untilTick s = untilLatestRelease s :=
        hs.untilLatestRelease_atTick
      have hlater : nextTickTime s.afterWait = nextTickTime s + 120 :=
        congrArg (nextTickTime s + ·) htick
      have hsame : s.afterWait.horizon = s.horizon := rfl
      obtain ⟨k, t, hk, hrun, hrest⟩ := ih hnext (by omega) (by omega)
      exact ⟨k + 1, t, by omega, runSteps_cons hstep hrun, hrest⟩

/-- Settles O35: the latest release is at most 240 ms after the next TICK, so the third one releases. -/
theorem silenceReleasesTheButton : Obligations.SilenceReleasesTheButton := by
  intro s hs ha hheld htrace hhorizon
  have htick : nextTickTime s ≤ s.time + 240 := Nat.add_le_add_left (hs.tick_near ha) _
  have hrelease := hs.release_near hheld
  exact HeldInSilence.releases 3 ⟨hs, hheld, htrace⟩ (by omega) (by omega)

end Sys2Proof.Machine

/-! PROOFS. The transactions that reach the Debounce & Repeat Engine, one by one
(spec/41_debounce_repeat.md R141 to R147): the SPACE that completes a command, the repeat, and TICK. -/

namespace Sys2Proof.Machine

/-- The shift of a SPACE's bit into the command register, as a sum (R100, R114). -/
theorem shiftIn_sumBit (s : State) (d : Dur) :
    shiftIn s.commandBits (sumBit s.cfg (spaceSum s d)) =
      s.commandBits * 2 + (if s.cfg.tBit1 ≤ spaceSum s d then 1 else 0) := by
  simp [shiftIn_eq, sumBit]

/-- SPACE on the last bit of the command window is one DEBOUNCE_CMD (R115, R125). -/
theorem execSpace_completes {s : State} {d : Dur} (ha : s.attached = true)
    (hbit : spaceSum s d < s.cfg.tRepeat) (h23 : s.bitsReceived = 23#6) :
    exec (.space d) s = .next (debounceCmd (shiftIn s.commandBits (sumBit s.cfg (spaceSum s d)))
      { s.quiet with
        commandBits := shiftIn s.commandBits (sumBit s.cfg (spaceSum s d)), bitsReceived := 24 }) := by
  rw [execSpace_bit s d ha hbit, pushBit_lastOfWindow _ (s := s.quiet) h23]
  rfl

/-- Settles O14, by what DEBOUNCE_CMD does with the held code: nothing held, another code, the same. -/
theorem spaceCompletesTheCommand : Obligations.SpaceCompletesTheCommand := by
  intro s d c ha hbit h23 hc
  rw [← shiftIn_sumBit] at hc
  rw [execSpace_completes ha hbit h23, ← hc]
  rcases debounceCmd_cases c { s.quiet with commandBits := c, bitsReceived := 24 } with
    ⟨hidle, hx⟩ | ⟨hheld, hne, hx⟩ | ⟨hsame, hx⟩ <;> rw [hx]
  · replace hidle : s.activeCommand = noneCode := hidle
    refine ⟨fun _ => ?_, fun h => absurd (h.symm.trans hidle) (wireCode_ne_none c)⟩
    rw [if_pos hidle]
    rfl
  · replace hheld : s.activeCommand ≠ noneCode := hheld
    refine ⟨fun _ => ?_, fun h => absurd h hne⟩
    rw [if_neg hheld]
    rfl
  · exact ⟨fun h => absurd hsame h, fun _ => rfl⟩

/-- Settles O11: the repeat is one DEBOUNCE_REPEAT after the resync. -/
theorem spaceRepeatRefreshesOnlyWhileHeld : Obligations.SpaceRepeatRefreshesOnlyWhileHeld := by
  intro s d ha hw hrepeat hstart
  rw [execSpace_repeat s d ha hw hrepeat hstart, debounceRepeat_eq]
  by_cases hidle : s.activeCommand = noneCode
  · have hheld : (resync s.quiet).held = false := (not_held_iff s).2 hidle
    rw [hheld, if_pos hidle]
    rfl
  · have hheld : (resync s.quiet).held = true := (held_iff s).2 hidle
    rw [hheld, if_neg hidle]
    rfl

/-- The TICK word is illegal wherever it does not come from the scheduler (R82, R202). -/
theorem illegalOn_tickWord {src : Source} (hsrc : src ≠ .scheduler) :
    IllegalOn src 0x3000000000#40 := by
  refine illegalOn_of_undecodable fun i h hi => hsrc ?_
  obtain rfl : .tick = i := Except.ok.inj (decode_tickWord.symm.trans h)
  exact hi.symm

/-- Settles O15: a TICK releases exactly while Held after the deadline. -/
theorem tickReleasesOrReschedules : Obligations.TickReleasesOrReschedules := by
  refine ⟨fun s hheld hpast => ?_, fun s hrest => ?_,
    (decodeFor_ok_iff _ _ _).2 ⟨decode_tickWord, rfl⟩, illegalOn_tickWord nofun,
    illegalOn_tickWord nofun⟩
  · rcases execTick_cases s with ⟨-, -, hx⟩ | ⟨hnot, -⟩
    · exact hx
    · exact absurd ⟨(held_iff s).2 hheld, hpast⟩ hnot
  · rcases execTick_cases s with ⟨hheld, hpast, -⟩ | ⟨-, hx⟩
    · rcases hrest with hidle | hnot
      · exact absurd hidle ((held_iff s).1 hheld)
      · exact absurd (hpast.symm.trans hnot) (by simp)
    · rw [hx]
      by_cases hidle : s.activeCommand = noneCode
      · rw [(not_held_iff s).2 hidle, if_pos hidle]
        rfl
      · rw [(held_iff s).2 hidle, if_neg hidle]
        rfl

end Sys2Proof.Machine

/-! PROOFS. The transactions of the HOST port one by one, their words and their effects
(spec/42_host_interface.md R170 to R177). -/

namespace Sys2Proof

/-! ### The words of a row -/

theorem Op.op_build (op : Op) (w : TWord) : (op.build w).op = op := by cases op <;> rfl

/-- A word of a row's format runs that row's instruction on the row's own source (R82 to R84). -/
theorem decodeFor_of_fields {op : Op} {w : TWord} (h : op.Fields w) :
    decodeFor op.source w = .ok (op.build w) :=
  (Machine.decodeFor_ok_iff _ _ _).2
    ⟨decode_of_selects op w ((Op.selects_iff_fields op w).2 h), by rw [Op.op_build]⟩

/-- A word with the opcode of a row decodes by that row, if it decodes at all (R81, R85). -/
theorem decode_ok_of_opcode {op : Op} {w : TWord} {i : Instr} (hop : opField w = op.opcode)
    (h : decode w = .ok i) : op.Fields w ∧ i = op.build w := by
  obtain ⟨op', hsel, rfl⟩ := (decode_ok_iff w i).1 h
  obtain rfl : op' = op := Op.opcode_inj _ _ (((Op.selects_iff op' w).1 hsel).1.symm.trans hop)
  exact ⟨(Op.selects_iff_fields op' w).1 hsel, rfl⟩

/-- The three things a HOST row says of the words with its opcode, `P` and `Q` being what its format asks
of SUB and of ARG: its instruction on HOST, illegal there with a reserved bit set, illegal on EDGE
(R81, R82, R202). -/
theorem hostWord {op : Op} {w : TWord} {P Q : Prop} (hsrc : op.source = .host)
    (hop : opField w = op.opcode) (hfields : op.Fields w ↔ opField w = op.opcode ∧ P ∧ Q) :
    (P → Q → decodeFor .host w = .ok (op.build w)) ∧
      (¬P ∨ ¬Q → Machine.IllegalOn .host w) ∧ Machine.IllegalOn .edge w := by
  refine ⟨fun hP hQ => hsrc ▸ decodeFor_of_fields (hfields.2 ⟨hop, hP, hQ⟩), fun hnot => ?_, ?_⟩
  · refine Machine.illegalOn_of_undecodable fun i h => ?_
    obtain ⟨-, hP, hQ⟩ := hfields.1 (decode_ok_of_opcode hop h).1
    exact absurd ⟨hP, hQ⟩ (not_and_or.2 hnot)
  · refine Machine.illegalOn_of_undecodable fun i h => ?_
    rw [(decode_ok_of_opcode hop h).2, Op.op_build, hsrc]
    nofun

theorem argLow_eq_extractLsb' (w : TWord) : argLow w = (argField w).extractLsb' 0 8 := by
  rw [argLow_eq, BitVec.setWidth_eq_extractLsb' (by decide)]

/-- In a SUB field whose other bits are 0, the option bit is the whole field (R80). -/
theorem optionBit_of_lt {w : TWord} (h : (subField w).toNat < 2) :
    optionBit w = decide (subField w = 1#4) := by
  rw [optionBit_eq]
  generalize subField w = u at h ⊢
  revert u
  decide

theorem build_attach {w : TWord} (h : (subField w).toNat < 2) :
    Op.attach.build w = .attach (if subField w = 1#4 then .addressLenient else .standard)
      ((argField w).extractLsb' 0 8) := by
  rw [Op.build, optionBit_of_lt h, argLow_eq_extractLsb']
  by_cases hu : subField w = 1#4 <;> simp [hu, protocolOfBit]

theorem build_subscribe {w : TWord} (h : (subField w).toNat < 2) :
    Op.subscribe.build w = .subscribe (if subField w = 1#4 then .released else .pressed)
      ((argField w).extractLsb' 8 8) ((argField w).extractLsb' 0 8) := by
  rw [Op.build, optionBit_of_lt h, argLow_eq_extractLsb', argHandler_eq]
  by_cases hu : subField w = 1#4 <;> simp [hu, kindOfBit]

end Sys2Proof

namespace Sys2Proof.Machine

/-! ### ATTACH -/

/-- Settles O17: the two cases of ATTACH, and its row. -/
theorem onlyTheFirstAttachAttaches : Obligations.OnlyTheFirstAttachAttaches := by
  refine ⟨fun s p src hdetached => ?_, fun s p src hattached => ?_, fun w hop => ?_⟩
  · rcases execAttach_cases p src s with ⟨hattached, -⟩ | ⟨-, hx⟩
    · simp [hdetached] at hattached
    · exact hx
  · rcases execAttach_cases p src s with ⟨-, hx⟩ | ⟨hdetached, -⟩
    · exact hx
    · simp [hattached] at hdetached
  · obtain ⟨hlegal, hreserved, hedge⟩ := hostWord (op := .attach) rfl hop Iff.rfl
    exact ⟨fun hsub harg => build_attach hsub ▸ hlegal hsub harg,
      fun h => hreserved (h.imp Nat.not_lt.2 Nat.not_lt.2), hedge⟩

/-! ### What an identifier names -/

theorem buttonRef_any (cfg : Config) : buttonRef cfg 0xFF#8 = some .any := rfl

theorem buttonRef_of_ne {cfg : Config} {b : ButtonId} (hb : b ≠ 0xFF#8) :
    buttonRef cfg b = (catRead cfg b).map .wire := if_neg hb

/-- The illegal transaction of a HOST instruction whose identifier is unassigned (R202, R203). -/
theorem quiet_raiseIllegal_host (s : State) : s.quiet.raiseIllegal .host = { s with
    faultIllegal := true
    out := { events := [], response := some 0, fault := some .illegalTransaction } } := rfl

/-! ### SUBSCRIBE -/

theorem subEntry_any (cfg : Config) (a : EventKind) (h : HandlerId) :
    subEntry cfg a h 0xFF#8 =
      some { valid := true, action := a, any := true, code := 0, handler := h } := rfl

theorem subEntry_assigned {cfg : Config} {b : ButtonId} {c : Code} (a : EventKind) (h : HandlerId)
    (hb : b ≠ 0xFF#8) (hc : catRead cfg b = some c) :
    subEntry cfg a h b =
      some { valid := true, action := a, any := false, code := c, handler := h } := by
  rw [subEntry, buttonRef_of_ne hb, hc]
  rfl

theorem subEntry_unassigned {cfg : Config} {b : ButtonId} (a : EventKind) (h : HandlerId)
    (hb : b ≠ 0xFF#8) (hc : catRead cfg b = none) : subEntry cfg a h b = none := by
  rw [subEntry, buttonRef_of_ne hb, hc]
  rfl

/-- The slot index in bits 15..8 above a 1 in bit 0, as a sum (R90). -/
theorem storedResponse_eq (slot : BitVec 8) : storedResponse slot = slot.setWidth 32 * 256 + 1 := by
  have hbits : slot.setWidth 32 <<< 8 &&& (1 : BitVec 32) = 0 := by
    rw [BitVec.ofNat_eq_ofNat, BitVec.and_one_eq_setWidth_ofBool_getLsbD]
    simp
  rw [storedResponse, ← BitVec.add_eq_or_of_and_eq_zero _ _ hbits, BitVec.shiftLeft_eq_mul_twoPow]
  rfl

/-- SUBSCRIBE of a legal identifier: refused as full, or stored (R172, R173). -/
theorem exec_subscribe_of_subEntry {s : State} {a : EventKind} {h : HandlerId} {b : ButtonId}
    {e : SubEntry} (he : subEntry s.cfg a h b = some e) :
    exec (.subscribe a h b) s = .next
      (if s.subCount.toNat = s.cfg.subSlots then { s with subOverflow := true, out := answer 0 }
      else { s with
        subTable := s.subTable.set s.subCount.toNat e
        subCount := s.subCount + 1
        out := answer (s.subCount.setWidth 32 * 256 + 1) }) := by
  rcases execSubscribe_cases a h b s with ⟨hnone, -⟩ | ⟨_, -, hfull, hx⟩ | ⟨e', he', hfree, hx⟩
  · simp [subEntry, hnone] at he
  · rw [hx, if_pos hfull]
  · obtain rfl : e' = e := Option.some.inj (he'.symm.trans he)
    rw [hx, if_neg hfree, storedResponse_eq]

/-- Settles O18: the entry of a legal identifier, the fault of an unassigned one, and the row. -/
theorem subscribeStoresTheSlot : Obligations.SubscribeStoresTheSlot := by
  refine ⟨fun s a h b e hlegal => ?_, fun s a h b hb hnone => ?_, fun w hop => ?_⟩
  · rcases hlegal with ⟨rfl, rfl⟩ | ⟨hb, c, hc, rfl⟩
    · exact exec_subscribe_of_subEntry (subEntry_any s.cfg a h)
    · exact exec_subscribe_of_subEntry (subEntry_assigned a h hb hc)
  · have hentry := subEntry_unassigned a h hb hnone
    rcases execSubscribe_cases a h b s with ⟨-, hx⟩ | ⟨e, he, -⟩ | ⟨e, he, -⟩
    · rw [hx, quiet_raiseIllegal_host]
    · simp [hentry] at he
    · simp [hentry] at he
  · obtain ⟨hlegal, hreserved, hedge⟩ := hostWord (op := .subscribe) rfl hop Iff.rfl
    exact ⟨fun hsub harg => build_subscribe hsub ▸ hlegal hsub harg,
      fun h => hreserved (h.imp Nat.not_lt.2 Nat.not_lt.2), hedge⟩

/-- Settles O19: a legal identifier has an entry, and a full table does not take it. -/
theorem subscribeToAFullTable : Obligations.SubscribeToAFullTable := by
  intro s a h b hfull hlegal
  have hentry : ∃ e, subEntry s.cfg a h b = some e := by
    by_cases hb : b = 0xFF#8
    · exact ⟨_, hb ▸ subEntry_any s.cfg a h⟩
    · obtain ⟨c, hc⟩ := hlegal.resolve_left hb
      exact ⟨_, subEntry_assigned a h hb hc⟩
  obtain ⟨e, he⟩ := hentry
  rw [exec_subscribe_of_subEntry he, if_pos hfull]

/-! ### CURRENT_BUTTON and WAS_PRESSED -/

/-- Settles O20: 9 bits fit the 32 of RESP. -/
theorem currentButtonAnswersLastCommand : Obligations.CurrentButtonAnswersLastCommand :=
  ⟨fun s => ⟨s.lastCommand.setWidth 32, rfl, BitVec.toNat_setWidth_of_le (by decide)⟩,
    fun _ hop => hostWord (op := .currentButton) rfl hop Iff.rfl⟩

theorem flagWord_eq (b : Bool) : flagWord b = if b then 1 else 0 := by cases b <;> rfl

/-- WAS_PRESSED reads the flag and clears it (R175). -/
theorem exec_wasPressed (s : State) : exec .wasPressed s = .next { s with
    hasUnreadPress := false
    out := answer (if s.hasUnreadPress then 1 else 0) } := by
  rw [← flagWord_eq]
  rfl

/-- Settles O21: the flag that the first call leaves is 0, which the second one answers. -/
theorem wasPressedConsumesTheFlag : Obligations.WasPressedConsumesTheFlag := by
  refine ⟨exec_wasPressed, fun s t h => ?_,
    fun _ hop => hostWord (op := .wasPressed) rfl hop Iff.rfl⟩
  cases (exec_wasPressed s).symm.trans h
  exact exec_wasPressed _

/-! ### BUTTON_CODE -/

/-- BUTTON_CODE of a legal identifier (R176). -/
theorem exec_buttonCode_of_buttonRef {s : State} {b : ButtonId} {r : ButtonRef}
    (hr : buttonRef s.cfg b = some r) :
    exec (.buttonCode b) s = .next { s with out := answer ((buttonCode9 r).setWidth 32) } := by
  rcases execButtonCode_cases b s with ⟨hnone, -⟩ | ⟨r', hr', hx⟩
  · simp [hr] at hnone
  · obtain rfl : r' = r := Option.some.inj (hr'.symm.trans hr)
    exact hx

theorem wireCode_setWidth (c : Code) : (wireCode c).setWidth 32 = c.setWidth 32 :=
  BitVec.setWidth_setWidth (by decide)

/-- Settles O22: by what the identifier names. -/
theorem buttonCodeLooksUp : Obligations.ButtonCodeLooksUp := by
  refine ⟨fun s => exec_buttonCode_of_buttonRef (buttonRef_any s.cfg), fun s b c hb hc => ?_,
    fun s b hb hnone => ?_, fun w hop => ?_⟩
  · have hr : buttonRef s.cfg b = some (.wire c) := by rw [buttonRef_of_ne hb, hc]; rfl
    rw [exec_buttonCode_of_buttonRef hr, buttonCode9, wireCode_setWidth]
  · have hr : buttonRef s.cfg b = none := by rw [buttonRef_of_ne hb, hnone]; rfl
    rcases execButtonCode_cases b s with ⟨-, hx⟩ | ⟨r, hr', -⟩
    · rw [hx, quiet_raiseIllegal_host]
    · simp [hr] at hr'
  · obtain ⟨hlegal, hreserved, hedge⟩ := hostWord (op := .buttonCode) rfl hop Iff.rfl
    exact ⟨fun hsub harg => argLow_eq_extractLsb' w ▸ hlegal hsub harg,
      fun h => hreserved (h.imp_right Nat.not_lt.2), hedge⟩

/-! ### READ_STATUS -/

/-- STATUS[15:8]: the held code, or 0 while Idle (R90). -/
def statusCode (s : State) : Code := if s.activeCommand = 0x100#9 then 0#8 else s.heldCode

theorem held_eq_decide (s : State) : s.held = decide (s.activeCommand ≠ 0x100#9) := by
  rw [Bool.eq_iff_iff, held_iff, decide_eq_true_eq]

theorem statusWord_eq (s : State) : statusWord s =
    flagWord s.attached ||| (flagWord (s.protocol = .addressLenient) <<< 1) ||| (flagWord s.held <<< 2)
      ||| (flagWord s.faultIllegal <<< 3) ||| (flagWord s.subOverflow <<< 4)
      ||| ((statusCode s).setWidth 32 <<< 8) ||| (s.subCount.setWidth 32 <<< 16) := by
  by_cases hidle : s.activeCommand = noneCode
  · simp [statusWord, statusCode, State.held, hidle]
  · simp [statusWord, statusCode, State.held, State.heldCode, hidle]

theorem flagWord_getLsbD (b : Bool) (i : Nat) : (flagWord b).getLsbD i = (decide (i = 0) && b) := by
  cases b <;> simp [flagWord]

/-- A flag shifted to bit `n` of RESP. -/
theorem flagWord_shiftLeft_getLsbD (b : Bool) (n : Nat) {i : Nat} (hi : i < 32) :
    (flagWord b <<< n).getLsbD i = (decide (i = n) && b) := by
  rw [BitVec.getLsbD_shiftLeft, flagWord_getLsbD]
  rcases Nat.lt_trichotomy i n with h | rfl | h
  · simp [h, h.ne]
  · simp [hi]
  · simp [h.ne', Nat.sub_eq_zero_iff_le, h]

/-- A byte shifted to the bits of RESP from `n` on. -/
theorem byte_shiftLeft_getLsbD (c : BitVec 8) (n : Nat) {i : Nat} (hi : i < 32) :
    (c.setWidth 32 <<< n).getLsbD i = (decide (n ≤ i) && c.getLsbD (i - n)) := by
  rcases Nat.lt_or_ge i n with h | h
  · simp [h]
  · simp [hi, h]

/-- STATUS bit by bit (R90). -/
theorem statusWord_getLsbD (s : State) {i : Nat} (hi : i < 32) :
    (statusWord s).getLsbD i =
      ((decide (i = 0) && s.attached) || (decide (i = 1) && decide (s.protocol = .addressLenient)) ||
        (decide (i = 2) && s.held) || (decide (i = 3) && s.faultIllegal) ||
        (decide (i = 4) && s.subOverflow) || (decide (8 ≤ i) && (statusCode s).getLsbD (i - 8)) ||
        (decide (16 ≤ i) && s.subCount.getLsbD (i - 16))) := by
  simp only [statusWord_eq, BitVec.getLsbD_or, flagWord_getLsbD, flagWord_shiftLeft_getLsbD _ _ hi,
    byte_shiftLeft_getLsbD _ _ hi]

/-- STATUS[4:0] and the three zeros above. -/
theorem statusWord_getLsbD_low (s : State) {i : Nat} (hi : i < 8) :
    (statusWord s).getLsbD i =
      ((decide (i = 0) && s.attached) || (decide (i = 1) && decide (s.protocol = .addressLenient)) ||
        (decide (i = 2) && s.held) || (decide (i = 3) && s.faultIllegal) ||
        (decide (i = 4) && s.subOverflow)) := by
  have h8 : ¬ 8 ≤ i := by omega
  have h16 : ¬ 16 ≤ i := by omega
  simp [statusWord_getLsbD s (i := i) (by omega), h8, h16]

/-- STATUS[31:8]: the code's byte, and above it the count's. -/
theorem statusWord_getLsbD_high (s : State) {i : Nat} (hi : i < 24) :
    (statusWord s).getLsbD (8 + i) =
      ((statusCode s).getLsbD i || (decide (8 ≤ i) && s.subCount.getLsbD (i - 8))) := by
  have hflag (n : Nat) (hn : n < 8) : 8 + i ≠ n := by omega
  have h16 : 16 ≤ 8 + i ↔ 8 ≤ i := by omega
  have hsub : 8 + i - 16 = i - 8 := by omega
  simp [statusWord_getLsbD s (i := 8 + i) (by omega), hflag, h16, hsub]

theorem statusWord_zeros (s : State) : (statusWord s).extractLsb' 5 3 = 0#3 := by
  refine BitVec.eq_of_getLsbD_eq fun i hi => ?_
  have hflag (n : Nat) (hn : n < 5) : 5 + i ≠ n := by omega
  rw [BitVec.getLsbD_extractLsb', statusWord_getLsbD_low s (by omega)]
  simp [hflag]

theorem statusWord_code (s : State) : (statusWord s).extractLsb' 8 8 = statusCode s := by
  refine BitVec.eq_of_getLsbD_eq fun i hi => ?_
  have h8 : ¬ 8 ≤ i := by omega
  rw [BitVec.getLsbD_extractLsb', statusWord_getLsbD_high s (by omega)]
  simp [hi, h8]

theorem statusWord_count (s : State) : (statusWord s).extractLsb' 16 8 = s.subCount := by
  refine BitVec.eq_of_getLsbD_eq fun i hi => ?_
  rw [BitVec.getLsbD_extractLsb', show 16 + i = 8 + (8 + i) by omega,
    statusWord_getLsbD_high s (by omega)]
  simp [hi]

theorem statusWord_top (s : State) : (statusWord s).extractLsb' 24 8 = 0#8 := by
  refine BitVec.eq_of_getLsbD_eq fun i hi => ?_
  rw [BitVec.getLsbD_extractLsb', show 24 + i = 8 + (16 + i) by omega,
    statusWord_getLsbD_high s (by omega), BitVec.getLsbD_of_ge (statusCode s) _ (by omega),
    BitVec.getLsbD_of_ge s.subCount _ (by omega)]
  simp

/-- Settles O23, field by field of STATUS. -/
theorem readStatusLayout : Obligations.ReadStatusLayout := by
  refine ⟨fun s => ⟨statusWord s, rfl, ?_, ?_, ?_, ?_, ?_, statusWord_zeros s, statusWord_code s,
    statusWord_count s, statusWord_top s⟩, fun _ hop => hostWord (op := .readStatus) rfl hop Iff.rfl⟩
  all_goals
    rw [statusWord_getLsbD_low s (by decide)]
    simp [held_eq_decide]

end Sys2Proof.Machine

/-! PROOFS. What every step keeps of the attachment and of the sticky flags
(spec/42_host_interface.md R178, spec/10_state.md R35, R36, spec/60_exceptions.md R203). -/

namespace Sys2Proof.Machine

/-- What every transaction keeps of the attachment and of the sticky flags (R35, R36, R178, R203). -/
structure Sticks (s t : State) : Prop where
  attachment : s.attached = true →
    t.attached = true ∧ t.protocol = s.protocol ∧ t.srcSel = s.srcSel
  illegal : s.faultIllegal = true → t.faultIllegal = true
  overflow : s.subOverflow = true → t.subOverflow = true
  reported : t.faultIllegal = true → s.faultIllegal = true ∨ t.out.fault = some .illegalTransaction

/-- A transaction that writes none of these registers. -/
theorem sticks_of_unwritten {s t : State} (hattached : t.attached = s.attached)
    (hprotocol : t.protocol = s.protocol) (hsrc : t.srcSel = s.srcSel)
    (hfault : t.faultIllegal = s.faultIllegal) (hoverflow : t.subOverflow = s.subOverflow) :
    Sticks s t where
  attachment := fun h => ⟨hattached.trans h, hprotocol, hsrc⟩
  illegal := hfault.trans
  overflow := hoverflow.trans
  reported := fun h => .inl (hfault.symm.trans h)

theorem raiseIllegal_sticks (src : Source) (s : State) : Sticks s (s.raiseIllegal src) where
  attachment := fun h => ⟨h, rfl, rfl⟩
  illegal := fun _ => rfl
  overflow := id
  reported := fun _ => .inr rfl

theorem execSpace_sticks {s t : State} {d : Dur} (h : exec (.space d) s = .next t) : Sticks s t := by
  cases execSpace_effect h with
  | counts | shifts => exact sticks_of_unwritten rfl rfl rfl rfl rfl
  | completes => rw [debounceCmd_frame]; exact sticks_of_unwritten rfl rfl rfl rfl rfl
  | repeats => rw [debounceRepeat_eq]; exact sticks_of_unwritten rfl rfl rfl rfl rfl

theorem exec_sticks {i : Instr} {s t : State} (h : exec i s = .next t) : Sticks s t := by
  cases i with
  | space d => exact execSpace_sticks h
  | mark d =>
    cases (exec_mark d s).symm.trans h
    exact sticks_of_unwritten rfl rfl rfl rfl rfl
  | tick =>
    rcases execTick_cases s with ⟨_, _, hx⟩ | ⟨_, hx⟩ <;> cases hx.symm.trans h <;>
      exact sticks_of_unwritten rfl rfl rfl rfl rfl
  | attach p src =>
    rcases execAttach_cases p src s with ⟨_, hx⟩ | ⟨hdetached, hx⟩ <;> cases hx.symm.trans h
    · exact sticks_of_unwritten rfl rfl rfl rfl rfl
    · exact ⟨fun ha => absurd ha (by simp [hdetached]), id, id, .inl⟩
  | subscribe a hh b =>
    rcases execSubscribe_cases a hh b s with ⟨_, hx⟩ | ⟨_, _, _, hx⟩ | ⟨_, _, _, hx⟩ <;>
      cases hx.symm.trans h
    · exact { raiseIllegal_sticks .host s.quiet with }
    · exact ⟨fun ha => ⟨ha, rfl, rfl⟩, id, fun _ => rfl, .inl⟩
    · exact sticks_of_unwritten rfl rfl rfl rfl rfl
  | buttonCode b =>
    rcases execButtonCode_cases b s with ⟨_, hx⟩ | ⟨_, _, hx⟩ <;> cases hx.symm.trans h
    · exact { raiseIllegal_sticks .host s.quiet with }
    · exact sticks_of_unwritten rfl rfl rfl rfl rfl
  | currentButton | wasPressed | readStatus =>
    cases h
    exact sticks_of_unwritten rfl rfl rfl rfl rfl

theorem Sticks.of_sameMachine {s u t : State} (hu : SameMachine s u) (h : Sticks u t) : Sticks s t := by
  rw [hu] at h
  exact { h with }

/-- Settles O44: the transaction of a step is an instruction or the fault, and both keep these registers. -/
theorem attachmentAndStickyFlagsStay : Obligations.AttachmentAndStickyFlagsStay := by
  intro s t hstep
  have hsticks : Sticks s t := by
    obtain ⟨u, hu, ⟨i, -, hi⟩ | ⟨src, rfl⟩⟩ := step_transaction hstep
    · exact (exec_sticks hi).of_sameMachine hu
    · exact (raiseIllegal_sticks src u).of_sameMachine hu
  exact ⟨hsticks.attachment, hsticks.illegal, hsticks.overflow, hsticks.reported⟩

end Sys2Proof.Machine

/-! PROOFS. Events and faults over all transactions (spec/60_exceptions.md R201 to R210): which slots an
event matches and which handlers it runs, what an instruction emits, that a legal one never faults and an
undecodable word only does that, and the race of a TICK with a repeat. -/

namespace Sys2Proof.Machine

/-! ### Words that spell no transaction -/

/-- Settles O5: such a word only raises IllegalTransaction. -/
theorem undecodableWordsAreIllegal : Obligations.UndecodableWordsAreIllegal :=
  fun _ _ => illegalOn_of_undecodable

/-! ### Matching and dispatch -/

theorem SubEntry.isMatch_iff (k : EventKind) (c : Code) (e : SubEntry) :
    e.isMatch k c = true ↔ e.valid = true ∧ e.action = k ∧ (e.any = true ∨ e.code = c) := by
  simp [SubEntry.isMatch, and_assoc]

theorem matchBits_getElem? (table : List SubEntry) (k : EventKind) (c : Code) (i : Nat) :
    (matchBits table k c)[i]? = table[i]?.map (SubEntry.isMatch k c) :=
  List.getElem?_map

/-- Settles O25: bit i is the match test of slot i. -/
theorem matchBitsSelectTheSlots : Obligations.MatchBitsSelectTheSlots := by
  intro table k c i e he
  have hbit : (record table k c).matched[i]? = some (e.isMatch k c) := by
    rw [record, matchBits_getElem?, he, Option.map_some]
  rw [hbit, Option.some_inj, SubEntry.isMatch_iff]

/-- Each slot beside its own match bit. -/
theorem zip_matchBits (table : List SubEntry) (k : EventKind) (c : Code) :
    table.zip (matchBits table k c) = table.map fun e => (e, e.isMatch k c) := by
  have h := List.zip_map' (f := id) (g := SubEntry.isMatch k c) (l := table)
  rwa [List.map_id] at h

/-- Settles O26: to keep the slots whose bit is 1 is to keep the slots that match, in their order. -/
theorem dispatchInSlotOrder : Obligations.DispatchInSlotOrder := by
  intro table k c
  rw [dispatchOrder, record, zip_matchBits, List.filter_map, List.map_map]
  rfl

/-! ### The events of an instruction -/

/-- A SPACE emits nothing, or the press of a code that is not held, after the release of what was. -/
theorem execSpace_events {s t : State} {d : Dur} (h : exec (.space d) s = .next t) :
    t.out.events = [] ∨ ∃ c, s.activeCommand ≠ wireCode c ∧ t.subTable = s.subTable ∧
      t.out.events = releaseRecords s ++ [record s.subTable .pressed c] := by
  cases execSpace_effect h with
  | counts | shifts => exact .inl rfl
  | repeats => exact .inl (by rw [debounceRepeat_eq]; rfl)
  | completes b =>
    rw [debounceCmd_events _ rfl]
    split
    · exact .inl rfl
    next hne => exact .inr ⟨_, hne, debounceCmd_subTable _ _, rfl⟩

/-- Settles O27: by what a SPACE and a TICK emit, since no other instruction reaches the engine. -/
theorem eventsOfAnInstruction : Obligations.EventsOfAnInstruction := by
  intro i s t h
  rcases instr_space_or_tick_or_other i with ⟨d, rfl⟩ | rfl | ⟨hs, ht⟩
  · rcases execSpace_events h with hnone | ⟨c, hne, htable, hevents⟩
    · exact .inl hnone
    rw [hevents, htable, releaseRecords]
    split
    · exact .inr (.inr (.inr ⟨_, c, rfl, ⟨d, rfl⟩, hne, rfl⟩))
    · exact .inr (.inl ⟨c, rfl, d, rfl⟩)
  · rcases execTick_cases s with ⟨-, -, hx⟩ | ⟨-, hx⟩ <;> cases hx.symm.trans h
    · exact .inr (.inr (.inl ⟨_, rfl, rfl⟩))
    · exact .inl rfl
  · exact .inl (exec_pipelineRests hs ht h).silent

/-! ### Completion without a fault -/

/-- A transaction of the source `src` has run without a fault, and answered if it is on HOST (R90, R201). -/
structure CompletesOn (src : Source) (s t : State) : Prop where
  no_fault : t.out.fault = none
  flag_kept : t.faultIllegal = s.faultIllegal
  answers_on_host : t.out.response.isSome = true ↔ src = .host

theorem completesOn_host {s t : State} {v : Resp} (hflag : t.faultIllegal = s.faultIllegal)
    (hout : t.out = answer v) : CompletesOn .host s t :=
  ⟨by rw [hout]; rfl, hflag, by rw [hout]; exact iff_of_true rfl rfl⟩

theorem completesOn_of_announce {src : Source} {s t : State} {evs : List EventRecord}
    (hsrc : src ≠ .host) (hflag : t.faultIllegal = s.faultIllegal) (hout : t.out = announce evs) :
    CompletesOn src s t :=
  ⟨by rw [hout]; rfl, hflag, by rw [hout]; exact iff_of_false nofun hsrc⟩

@[simp] theorem debounceCmd_faultIllegal (c : Code) (s : State) :
    (debounceCmd c s).faultIllegal = s.faultIllegal := by rw [debounceCmd_frame]

/-- DEBOUNCE_CMD only adds events to the outputs. -/
theorem debounceCmd_out (c : Code) (s : State) :
    (debounceCmd c s).out = { s.out with events := (debounceCmd c s).out.events } := by
  rcases debounceCmd_cases c s with ⟨_, h⟩ | ⟨_, _, h⟩ | ⟨_, h⟩ <;> rw [h]

theorem execSpace_completesOn {s t : State} {d : Dur} (h : exec (.space d) s = .next t) :
    CompletesOn .edge s t := by
  cases execSpace_effect h with
  | counts | shifts => exact completesOn_of_announce nofun rfl rfl
  | completes => exact completesOn_of_announce nofun (debounceCmd_faultIllegal _ _) (debounceCmd_out _ _)
  | repeats => rw [debounceRepeat_eq]; exact completesOn_of_announce nofun rfl rfl

theorem buttonRef_ne_none_of_legal {cfg : Config} {b : ButtonId} (h : legalButton cfg b = true) :
    buttonRef cfg b ≠ none :=
  Option.isSome_iff_ne_none.1 h

/-- What each legal instruction answers and reports. -/
theorem exec_completesOn {i : Instr} {s t : State} (hw : i.wellFormed s.cfg = true)
    (h : exec i s = .next t) : CompletesOn i.op.source s t := by
  cases i with
  | space d => exact execSpace_completesOn h
  | mark d =>
    cases (exec_mark d s).symm.trans h
    exact completesOn_of_announce nofun rfl rfl
  | tick =>
    rcases execTick_cases s with ⟨_, _, hx⟩ | ⟨_, hx⟩ <;> cases hx.symm.trans h <;>
      exact completesOn_of_announce nofun rfl rfl
  | attach p src =>
    rcases execAttach_cases p src s with ⟨_, hx⟩ | ⟨_, hx⟩ <;> cases hx.symm.trans h <;>
      exact completesOn_host rfl rfl
  | subscribe a hh b =>
    rcases execSubscribe_cases a hh b s with ⟨hnone, _⟩ | ⟨_, _, _, hx⟩ | ⟨_, _, _, hx⟩
    · exact absurd hnone (buttonRef_ne_none_of_legal hw)
    all_goals
      cases hx.symm.trans h
      exact completesOn_host rfl rfl
  | buttonCode b =>
    rcases execButtonCode_cases b s with ⟨hnone, _⟩ | ⟨_, _, hx⟩
    · exact absurd hnone (buttonRef_ne_none_of_legal hw)
    · cases hx.symm.trans h
      exact completesOn_host rfl rfl
  | currentButton | wasPressed | readStatus =>
    cases h
    exact completesOn_host rfl rfl

/-- Settles O28: every instruction has a next state, and a legal one reports no fault in it. -/
theorem wellFormedInstructionsComplete : Obligations.WellFormedInstructionsComplete := by
  intro i s hw
  obtain ⟨t, ht⟩ := exec_next i s
  obtain ⟨hfault, hflag, hanswers⟩ := exec_completesOn hw ht
  exact ⟨t, ht, hfault, hflag, hanswers⟩

/-! ### A TICK and an item of the same time -/

/-- The word `w` is all that is left to come on the ports, and it arrives now. -/
structure ArrivesNow (w : TWord) (s : State) : Prop where
  only_item : s.trace = [{ time := s.time, port := wordPort w, word := w }]
  by_horizon : s.time ≤ s.horizon

/-- A word that arrives now is a placed word (log entry 1). -/
theorem ArrivesNow.placeOnPort_eq {w : TWord} {s : State} (hw : ArrivesNow w s) :
    placeOnPort w s = { s with
      picks := if s.attached ∧ nextTickTime s = s.time then 0 :: s.picks else s.picks } := by
  rw [placeOnPort, ← hw.only_item, Nat.max_eq_left hw.by_horizon]

theorem ArrivesNow.step_placeOnPort_eq {w : TWord} {s : State} (hw : ArrivesNow w s) :
    step (placeOnPort w s) = perform (portSource (wordPort w)) w { s with trace := [] } := by
  rw [step_placeOnPort, Nat.max_eq_left hw.by_horizon]

/-- With no TICK due the word is taken. -/
theorem ArrivesNow.step_of_not_due {w : TWord} {s : State} (hw : ArrivesNow w s)
    (hdue : nextTickTime s ≠ s.time) :
    step s = perform (portSource (wordPort w)) w { s with trace := [] } := by
  rw [← hw.step_placeOnPort_eq, hw.placeOnPort_eq, if_neg fun h => hdue h.2]

/-- Choice 0 takes the word before a TICK of the same time (R62). -/
theorem ArrivesNow.step_item_first {w : TWord} {s : State} (hw : ArrivesNow w s)
    (hdue : s.attached = true ∧ nextTickTime s = s.time) :
    step { s with picks := 0 :: s.picks } =
      perform (portSource (wordPort w)) w { s with trace := [] } := by
  rw [← hw.step_placeOnPort_eq, hw.placeOnPort_eq, if_pos hdue]

/-- Choice 1 takes the TICK before a word of the same time (R62). -/
theorem ArrivesNow.step_tick_first {w : TWord} {s : State} (hw : ArrivesNow w s)
    (hdue : s.attached = true ∧ nextTickTime s = s.time) :
    step { s with picks := 1 :: s.picks } = exec .tick s := by
  have hoffer := arrivals_placeOnPort w s
  rw [tickArrival_placeOnPort_of_due hdue] at hoffer
  have hready := (ready_eq_arrivals (t := s.time) (by simp [hoffer, placedArrival])).trans hoffer
  rw [hw.placeOnPort_eq] at hready
  have hok : ({ s with picks := 1 :: s.picks } : State).traceOk = true := by
    simp [State.traceOk, hw.only_item, traceOrdered, hw.by_horizon]
  have harb : arbitrate { s with picks := 1 :: s.picks } =
      some ({ source := .scheduler, time := s.time, word := 0x3000000000#40 }, s) :=
    arbitrate_of_tie hready
  rw [step_of_arbitrate hok harb]
  exact perform_of_decode decode_tickWord rfl _

/-! ### The race of R209 -/

/-- The race of 95_test_vectors.md §6.6: a code is held past its deadline, and a repeat and the TICK
both arrive now. -/
structure RepeatMeetsTick (d : Dur) (s : State) : Prop where
  attached : s.attached = true
  hardware : s.cfg = Config.hardware
  held : s.held = true
  arrives : ArrivesNow (encode (.space d)) s
  due : s.tickDue = s.now
  past : after s.now s.repeatDeadline = true
  repeat_from : 2700 ≤ spaceSum s d
  repeat_to : spaceSum s d < 12500

/-- A TICK whose `tick_due` is now falls due at the state's time. -/
theorem nextTickTime_of_due_now {s : State} (h : s.tickDue = s.now) : nextTickTime s = s.time := by
  simp [nextTickTime, h]

/-- The word of a SPACE belongs on EDGE, and runs there as that SPACE. -/
theorem perform_space (d : Dur) (s : State) :
    perform (portSource (wordPort (encode (.space d)))) (encode (.space d)) s = exec (.space d) s :=
  perform_of_decode (decode_encode _) (portSource_wordPort_encode (i := .space d) nofun).symm s

theorem wordPort_encode_space (d : Dur) : wordPort (encode (.space d)) = .edge := by
  rw [wordPort, encode, opField_mkWord]
  rfl

/-- A repeat with this hardware's thresholds and window (R100, R143, R144). -/
theorem exec_space_hardware_repeat {s : State} {d : Dur} (ha : s.attached = true)
    (hcfg : s.cfg = Config.hardware) (hfrom : 2700 ≤ spaceSum s d) (hto : spaceSum s d < 12500) :
    exec (.space d) s = .next { s with
      bitsReceived := 0
      repeatDeadline := if s.activeCommand = noneCode then s.repeatDeadline else s.now + 120#32
      out := Output.quiet } := by
  have hwindow : s.cfg.repeatWindowMs = 120#32 := by rw [hcfg]; rfl
  rw [← hwindow]
  exact spaceRepeatRefreshesOnlyWhileHeld s d ha (by rw [hcfg]; decide) (by rw [hcfg]; exact hfrom)
    (by rw [hcfg]; exact hto)

/-- The state after a repeat that comes while a code is held. -/
def State.afterRefresh (s : State) : State :=
  { s with trace := [], bitsReceived := 0, repeatDeadline := s.now + 120#32, out := Output.quiet }

/-- The state after a TICK that releases the held code. -/
def State.afterRelease (s : State) : State :=
  { s with
    activeCommand := noneCode
    tickDue := s.now + 240#32
    out := announce [record s.subTable .released s.heldCode] }

/-- The refreshed deadline is ahead (R146). -/
theorem not_after_afterRefresh (s : State) :
    after s.afterRefresh.now s.afterRefresh.repeatDeadline = false := by
  have hlatest := untilLatestRelease_of_refresh (s := s.afterRefresh) rfl
  have hiff := after_deadline_iff (s := s.afterRefresh) (by omega)
  refine Bool.eq_false_iff.2 fun hpast => ?_
  have := hiff.1 hpast
  omega

/-- The release puts the next TICK 240 ms off (R147). -/
theorem nextTickTime_afterRelease (s : State) : nextTickTime s.afterRelease = s.time + 240 :=
  congrArg (s.time + ·) (untilTick_of_due (s := s.afterRelease) (d := 240#32) rfl)

section Race

variable {d : Dur} {s : State} (h : RepeatMeetsTick d s)
include h

theorem RepeatMeetsTick.tick_now : nextTickTime s = s.time := nextTickTime_of_due_now h.due

theorem RepeatMeetsTick.window : s.cfg.repeatWindowMs = 120#32 := by rw [h.hardware]; rfl

theorem RepeatMeetsTick.step_repeat_first :
    step { s with picks := 0 :: s.picks } = .next s.afterRefresh := by
  rw [h.arrives.step_item_first ⟨h.attached, h.tick_now⟩, perform_space]
  refine (exec_space_hardware_repeat (s := { s with trace := [] }) h.attached h.hardware h.repeat_from
    h.repeat_to).trans ?_
  rw [if_neg ((held_iff s).1 h.held)]
  rfl

/-- Right after the refresh the TICK releases nothing (R146). -/
theorem RepeatMeetsTick.step_tick_second :
    step s.afterRefresh = .next { s.afterRefresh with tickDue := s.now + 120#32 } := by
  have hnow : nextTickTime s.afterRefresh = s.time := h.tick_now
  rw [(schedulerIssuesTheTick s.afterRefresh h.attached rfl (hnow ▸ h.arrives.by_horizon)).1, hnow]
  refine (tickReleasesOrReschedules.2.1 s.afterRefresh (.inr (not_after_afterRefresh s))).trans ?_
  have hheld : s.afterRefresh.activeCommand ≠ noneCode := (held_iff s).1 h.held
  rw [if_neg hheld, show s.afterRefresh.cfg.repeatWindowMs = 120#32 from h.window]
  rfl

theorem RepeatMeetsTick.step_tick_first :
    step { s with picks := 1 :: s.picks } = .next s.afterRelease := by
  rw [h.arrives.step_tick_first ⟨h.attached, h.tick_now⟩,
    tickReleasesOrReschedules.1 s ((held_iff s).1 h.held) h.past, h.window]
  rfl

/-- After the release the repeat finds nothing held (R144). -/
theorem RepeatMeetsTick.step_repeat_second :
    step s.afterRelease = .next { s.afterRelease with
      trace := [], bitsReceived := 0, out := Output.quiet } := by
  have harrives : ArrivesNow (encode (.space d)) s.afterRelease := { h.arrives with }
  have hlater : nextTickTime s.afterRelease ≠ s.time := by rw [nextTickTime_afterRelease]; omega
  rw [harrives.step_of_not_due hlater, perform_space]
  exact exec_space_hardware_repeat (s := { s.afterRelease with trace := [] }) h.attached h.hardware
    h.repeat_from h.repeat_to

end Race

/-- Settles O43: choice 1 takes the TICK first, choice 0 the repeat. -/
theorem equalTimeRaceOfTickAndRepeat : Obligations.EqualTimeRaceOfTickAndRepeat := by
  intro s d ha hcfg hheld hhorizon hdue hpast hfrom hto htrace
  rw [← wordPort_encode_space d] at htrace
  have h : RepeatMeetsTick d { s with picks := [] } :=
    ⟨ha, hcfg, hheld, ⟨htrace, hhorizon⟩, hdue, hpast, hfrom, hto⟩
  have hrelease := runSteps_cons h.step_tick_first (runSteps_cons (n := 0) h.step_repeat_second rfl)
  have hrefresh := runSteps_cons h.step_repeat_first (runSteps_cons (n := 0) h.step_tick_second rfl)
  exact ⟨⟨[1], _, hrelease, rfl, rfl, rfl⟩, ⟨[0], _, hrefresh, hheld, rfl, rfl⟩⟩

end Sys2Proof.Machine

/-! PROOFS. Power-on (spec/70_reset_and_hazards.md R230, R232): every register at its reset value, and the
two invariants there, for any parameters that admit them. -/

namespace Sys2Proof.Machine

/-! ### The reset values -/

theorem length_powerOn_subTable (cfg : Config) :
    (State.powerOn cfg).subTable.length = cfg.subSlots := List.length_replicate

theorem eq_empty_of_mem_powerOn_subTable {cfg : Config} {e : SubEntry}
    (he : e ∈ (State.powerOn cfg).subTable) : e = SubEntry.empty := List.eq_of_mem_replicate he

/-- Settles O29: both forms of the hypothesis speak of the state after power-on. -/
theorem resetValues : Obligations.ResetValues := by
  refine ⟨by decide, fun cfg s hs => ?_⟩
  obtain rfl : s = State.powerOn cfg := by rcases hs with rfl | ⟨rfl, rfl⟩ <;> rfl
  exact ⟨rfl, rfl, rfl, rfl, rfl, rfl, rfl, rfl, rfl, rfl, rfl, rfl, length_powerOn_subTable cfg,
    fun _ => eq_empty_of_mem_powerOn_subTable, rfl, rfl⟩

/-! ### The register invariant -/

/-- No slot is written, and none is valid. -/
theorem tableOk_powerOn (cfg : Config) : TableOk cfg 0 (State.powerOn cfg).subTable where
  length := length_powerOn_subTable cfg
  count_le := Nat.zero_le _
  valid i e he := by
    obtain rfl := eq_empty_of_mem_powerOn_subTable (List.mem_of_getElem? he)
    exact (decide_eq_false (Nat.not_lt_zero i)).symm
  empty _ he _ := eq_empty_of_mem_powerOn_subTable he
  any_no_code e he _ := by
    obtain rfl := eq_empty_of_mem_powerOn_subTable he
    rfl

theorem codesOk_powerOn (cfg : Config) : CodesOk (State.powerOn cfg) where
  active_ok := rfl
  last_ok := rfl
  held_is_last _ := rfl

/-- R232: what the registers rest at before the first ATTACH are their reset values. -/
theorem detachedOk_powerOn (cfg : Config) : DetachedOk (State.powerOn cfg) :=
  ⟨rfl, rfl, rfl, rfl, rfl, rfl, rfl, rfl, rfl, rfl⟩

theorem registersOk_powerOn {cfg : Config} (hw : cfg.wf = true) : RegistersOk (State.powerOn cfg) :=
  registersOk_of_parts hw (tableOk_powerOn cfg) (codesOk_powerOn cfg) fun _ => detachedOk_powerOn cfg

/-! ### The timer invariant -/

/-- Nothing is held, and no TICK is due before an ATTACH (R231). -/
theorem timingOk_powerOn {cfg : Config} (hw : cfg.repeatWindowMs = 120#32) :
    TimingOk (State.powerOn cfg) :=
  timingOk_of_idle hw ((not_held_iff _).2 rfl) fun ha => absurd ha Bool.false_ne_true

/-- Settles O30: this hardware's parameters are well-formed and its repeat window is 120 ms. -/
theorem resetMeetsTheInvariants : Obligations.ResetMeetsTheInvariants := by
  have hw : Config.hardware.wf = true := by decide
  exact ⟨registersOk_powerOn hw, timingOk_powerOn rfl⟩

end Sys2Proof.Machine

/-! PROOFS. Which instruction writes which register: the "written by" column of the register inventory
(spec/10_state.md section 1), read row by row as what each instruction may write. -/

namespace Sys2Proof.Machine

/-! ### SPACE and its command -/

/-- A command that reaches the engine is the last command from then on (R28, R141). -/
theorem debounceCmd_lastCommand (c : Code) (s : State) :
    (debounceCmd c s).lastCommand = wireCode c := by
  rcases debounceCmd_cases c s with ⟨_, h⟩ | ⟨_, _, h⟩ | ⟨_, h⟩ <;> rw [h]

/-- A SPACE writes `last_command` only where it completes the command in `command_bits` (R28, R131). -/
theorem execSpace_lastCommand {s t : State} {d : Dur} (h : exec (.space d) s = .next t)
    (hne : t.lastCommand ≠ s.lastCommand) :
    t.bitsReceived = 24#6 ∧ t.lastCommand = t.commandBits.setWidth 9 := by
  cases execSpace_effect h with
  | counts | shifts => exact absurd rfl hne
  | completes b =>
    rw [debounceCmd_bitsReceived, debounceCmd_commandBits, debounceCmd_lastCommand]
    exact ⟨rfl, rfl⟩
  | repeats => exact absurd (by rw [debounceRepeat_eq]; rfl) hne

/-! ### What each instruction may write -/

/-- The registers an instruction may write: each constructor leaves the others as they are in `s`. -/
inductive Writes (s : State) : Instr → State → Prop
  /-- The outputs, the unread flag and the fault flag are all that most instructions write. -/
  | answers (i : Instr) (unread fault : Bool) (out : Output) :
      Writes s i { s with hasUnreadPress := unread, faultIllegal := fault, out := out }
  | mark (d latch : Dur) (out : Output) : Writes s (.mark d) { s with markLatch := latch, out := out }
  | space (d : Dur) (bits : BitVec 6) (command : Code) (last active : Code9) (unread : Bool)
      (deadline : Time) (out : Output) :
      Writes s (.space d) { s with
        bitsReceived := bits, commandBits := command, lastCommand := last, activeCommand := active
        hasUnreadPress := unread, repeatDeadline := deadline, out := out }
  | tick (active : Code9) (due : Time) (out : Output) :
      Writes s .tick { s with activeCommand := active, tickDue := due, out := out }
  /-- Only the first ATTACH writes more than the outputs (R170, R171). -/
  | attach (p : Protocol) (src : SrcId) (due : Time) (out : Output) (first : s.attached = false) :
      Writes s (.attach p src) { s with
        attached := true, protocol := p, srcSel := src, tickDue := due, out := out }
  | subscribe (a : EventKind) (hh : HandlerId) (b : ButtonId) (count : BitVec 8)
      (table : List SubEntry) (overflow : Bool) (out : Output) :
      Writes s (.subscribe a hh b) { s with
        subCount := count, subTable := table, subOverflow := overflow, out := out }

theorem execSpace_writes {s t : State} {d : Dur} (h : exec (.space d) s = .next t) :
    Writes s (.space d) t := by
  cases execSpace_effect h with
  | counts | shifts => exact .space ..
  | completes => rw [debounceCmd_frame]; exact .space ..
  | repeats => rw [debounceRepeat_eq]; exact .space ..

theorem exec_writes {i : Instr} {s t : State} (h : exec i s = .next t) : Writes s i t := by
  cases i with
  | mark d => cases (exec_mark d s).symm.trans h; exact .mark ..
  | space d => exact execSpace_writes h
  | tick =>
    rcases execTick_cases s with ⟨_, _, hx⟩ | ⟨_, hx⟩ <;> cases hx.symm.trans h <;> exact .tick ..
  | attach p src =>
    rcases execAttach_cases p src s with ⟨_, hx⟩ | ⟨hdetached, hx⟩ <;> cases hx.symm.trans h
    · exact .answers ..
    · exact .attach (first := hdetached) ..
  | subscribe a hh b =>
    rcases execSubscribe_cases a hh b s with ⟨_, hx⟩ | ⟨_, _, _, hx⟩ | ⟨_, _, _, hx⟩ <;>
      cases hx.symm.trans h
    · exact .answers ..
    · exact .subscribe ..
    · exact .subscribe ..
  | buttonCode b =>
    rcases execButtonCode_cases b s with ⟨_, hx⟩ | ⟨_, _, hx⟩ <;> cases hx.symm.trans h <;>
      exact .answers ..
  | currentButton | wasPressed | readStatus => cases h; exact .answers ..

/-- Settles O48: a register that changes is one its instruction may write, and a SPACE writes
`last_command` only with the command it completes. -/
theorem registerWriters : Obligations.RegisterWriters := by
  intro i s t h
  cases exec_writes h with
  | answers | mark | tick | subscribe => simp
  | space d =>
    have hlast := execSpace_lastCommand h
    exact ⟨by simp, by simp, by simp, fun hne => ⟨⟨d, rfl⟩, hlast hne⟩, by simp, by simp, by simp,
      exec_keeps_run h⟩
  | attach p src due out first => simp [first]

end Sys2Proof.Machine
